-- ==== Sys2Proof/Word.lean ====
section
/-! DEFINITION. Word.lean: the word types of QRECC (spec/00_scope.md R9: bit 0 is the least significant,
every value is unsigned). -/

namespace Sys2Proof

/-- A codeword: "an 8-bit unit of data or error-correction information" (R12). -/
abbrev Byte := BitVec 8

/-- A port word: the command, result and status registers are 32 bits wide (R7 PORT_BITS, R26). -/
abbrev Word := BitVec 32

/-- A field element of GF(256) is an 8-bit value (R52). -/
abbrev Elem := BitVec 8

end Sys2Proof
end

