-- ==== Sys2Proof/Syntax.lean ====
section
/-! DEFINITION. Syntax.lean: the fifteen commands of spec/opcode_table.json (spec/30_encoding.md R40 to R42), the
six error codes (spec/60_exceptions.md R83), the EC levels (spec/43_bch.md R79) and the terms of the assembler
language (R47). -/

namespace Sys2Proof

/-- The command names of the opcode map (R42), in its order. -/
inductive Mnemonic where
  | nop | srst | clrerr
  | rsCfg | rsClr | rsFeed | rsRdpar | rsRdgen | rsRdcfg
  | gfMul | gfExp | gfLog | gfInv
  | bchFmt | bchVer
  deriving DecidableEq, Repr

/-- One command with its operands, each an unsigned field taken directly from the command word (R41). Whether an
operand's value is legal is checked by the command's own rule, not here. -/
inductive Instr where
  /-- NOP, R49. -/
  | nop
  /-- SRST, R50. -/
  | srst
  /-- CLRERR, R51. -/
  | clrerr
  /-- RS_CFG, R66: `a` is the new EC count. -/
  | rsCfg (a : BitVec 8)
  /-- RS_CLR, R67. -/
  | rsClr
  /-- RS_FEED, R68: `a` is the next data codeword. -/
  | rsFeed (a : BitVec 8)
  /-- RS_RDPAR, R69: `a` is the index of the EC codeword. -/
  | rsRdpar (a : BitVec 8)
  /-- RS_RDGEN, R70: `a` is the index of the generator coefficient. -/
  | rsRdgen (a : BitVec 8)
  /-- RS_RDCFG, R71. -/
  | rsRdcfg
  /-- GF_MUL, R58: two field elements. -/
  | gfMul (a b : BitVec 8)
  /-- GF_EXP, R59: an exponent. -/
  | gfExp (a : BitVec 8)
  /-- GF_LOG, R60: a field element. -/
  | gfLog (a : BitVec 8)
  /-- GF_INV, R61: a field element. -/
  | gfInv (a : BitVec 8)
  /-- BCH_FMT, R80: the ordinal of the EC level (R79) and the mask id. -/
  | bchFmt (ecl : BitVec 2) (mask : BitVec 3)
  /-- BCH_VER, R81: the symbol version. -/
  | bchVer (ver : BitVec 6)
  deriving DecidableEq, Repr

/-- The row of the opcode map a command belongs to (R42). -/
def Instr.mnemonic : Instr → Mnemonic
  | .nop => .nop
  | .srst => .srst
  | .clrerr => .clrerr
  | .rsCfg _ => .rsCfg
  | .rsClr => .rsClr
  | .rsFeed _ => .rsFeed
  | .rsRdpar _ => .rsRdpar
  | .rsRdgen _ => .rsRdgen
  | .rsRdcfg => .rsRdcfg
  | .gfMul _ _ => .gfMul
  | .gfExp _ => .gfExp
  | .gfLog _ => .gfLog
  | .gfInv _ => .gfInv
  | .bchFmt _ _ => .bchFmt
  | .bchVer _ => .bchVer

/-- The six errors QRECC raises (R83). -/
inductive ErrorCode where
  /-- `w[31:24]` is not an assigned opcode (R44). -/
  | illegalOpcode
  /-- A reserved bit of the opcode's format is 1 (R45). -/
  | reservedBits
  /-- An operand value outside its legal range. -/
  | illegalOperand
  /-- E = 0. -/
  | notConfigured
  /-- The operand 0 has no logarithm and no inverse. -/
  | domain
  /-- The block already holds 255 − E data codewords. -/
  | length
  deriving DecidableEq, Repr

/-- The four EC levels in the source's order L/M/Q/H (R12, R79). -/
inductive EcLevel where
  | l | m | q | h
  deriving DecidableEq, Repr

/-- The ordinal of an EC level: L = 0, M = 1, Q = 2, H = 3 (R47, R79). -/
def EcLevel.ordinal : EcLevel → Nat
  | .l => 0
  | .m => 1
  | .q => 2
  | .h => 3

/-- An operand as an assembler line writes it (R47): a number, or the letter of an EC level. -/
inductive AsmOperand where
  | num (n : Nat)
  | letter (ecl : EcLevel)
  deriving DecidableEq, Repr

/-- The number an operand stands for (R47). -/
def AsmOperand.value : AsmOperand → Nat
  | .num n => n
  | .letter ecl => ecl.ordinal

/-- The fields an operand can be put in (R40, R47). -/
inductive FieldKind where
  /-- `e`, `d`, `i`, `a`, `b`: 8 bits. -/
  | byte
  /-- `ecl`: 2 bits, a number or a letter. -/
  | ecl
  /-- `m`: 3 bits. -/
  | mask
  /-- `v`: 6 bits. -/
  | ver
  deriving DecidableEq, Repr

/-- The operands of each command, in the order of the assembler syntax (R47). -/
def Mnemonic.operandFields : Mnemonic → List FieldKind
  | .nop => []
  | .srst => []
  | .clrerr => []
  | .rsCfg => [.byte]
  | .rsClr => []
  | .rsFeed => [.byte]
  | .rsRdpar => [.byte]
  | .rsRdgen => [.byte]
  | .rsRdcfg => []
  | .gfMul => [.byte, .byte]
  | .gfExp => [.byte]
  | .gfLog => [.byte]
  | .gfInv => [.byte]
  | .bchFmt => [.ecl, .mask]
  | .bchVer => [.ver]

/-- A command as an assembler line writes it, before the assembler has looked at it (R47). -/
structure AsmCommand where
  mnemonic : Mnemonic
  operands : List AsmOperand
  deriving DecidableEq, Repr

/-- One line of assembler text (R47): a command, a raw word (`.word`, spec/95_test_vectors.md P4), one of the two
host reads, or nothing but a comment. -/
inductive AsmLine where
  | command (c : AsmCommand)
  | word (n : Nat)
  | rdRes
  | rdStat
  | blank
  deriving DecidableEq, Repr

/-- A command written as an assembler line writes it, operands in the order of R47. -/
def Instr.asm : Instr → AsmCommand
  | .nop => ⟨.nop, []⟩
  | .srst => ⟨.srst, []⟩
  | .clrerr => ⟨.clrerr, []⟩
  | .rsCfg a => ⟨.rsCfg, [.num a.toNat]⟩
  | .rsClr => ⟨.rsClr, []⟩
  | .rsFeed a => ⟨.rsFeed, [.num a.toNat]⟩
  | .rsRdpar a => ⟨.rsRdpar, [.num a.toNat]⟩
  | .rsRdgen a => ⟨.rsRdgen, [.num a.toNat]⟩
  | .rsRdcfg => ⟨.rsRdcfg, []⟩
  | .gfMul a b => ⟨.gfMul, [.num a.toNat, .num b.toNat]⟩
  | .gfExp a => ⟨.gfExp, [.num a.toNat]⟩
  | .gfLog a => ⟨.gfLog, [.num a.toNat]⟩
  | .gfInv a => ⟨.gfInv, [.num a.toNat]⟩
  | .bchFmt ecl mask => ⟨.bchFmt, [.num ecl.toNat, .num mask.toNat]⟩
  | .bchVer ver => ⟨.bchVer, [.num ver.toNat]⟩

end Sys2Proof
end

