-- ==== Sys2Proof/WellFormed.lean ====
section
/-! DEFINITION. WellFormed.lean: what the assembler of spec/30_encoding.md R47 accepts. It "refuses an operand that
does not fit its field: e, d, i, a and b above 255, ecl above 3, m above 7, v above 63", and it does not check the
value legality of R41. An `Instr` holds its operands at the width of their fields, so every `Instr` is well formed;
what can be ill formed is the term an assembler is given. -/

namespace Sys2Proof

/-- The largest number a field holds (R47). -/
def FieldKind.maxValue : FieldKind → Nat
  | .byte => 255
  | .ecl => 3
  | .mask => 7
  | .ver => 63

/-- Whether an operand may stand in a field: it fits, and a letter stands only for an EC level (R47). -/
def FieldKind.admits (f : FieldKind) : AsmOperand → Bool
  | .num n => decide (n ≤ f.maxValue)
  | .letter _ => f == .ecl

/-- As many operands as fields, each admitted by its field. -/
def operandsFit : List FieldKind → List AsmOperand → Bool
  | [], [] => true
  | f :: fs, o :: os => f.admits o && operandsFit fs os
  | [], _ :: _ => false
  | _ :: _, [] => false

/-- An assembler command is well formed when its operands are those of its mnemonic, each fitting its field (R47). -/
def AsmCommand.wf (c : AsmCommand) : Bool := operandsFit c.mnemonic.operandFields c.operands

/-- A raw word of an assembler line fits the 32-bit command port (R39). -/
def wordFits (n : Nat) : Bool := decide (n < 2 ^ 32)

/-- An assembler line is well formed when its command or raw word is. -/
def AsmLine.wf : AsmLine → Bool
  | .command c => c.wf
  | .word n => wordFits n
  | .rdRes => true
  | .rdStat => true
  | .blank => true

/-- A command is well formed when the line that writes it is. -/
def Instr.wf (i : Instr) : Bool := i.asm.wf

end Sys2Proof
end

