-- ==== Sys2Proof/Decode.lean ====
section
/-! DEFINITION. Decode.lean: the command word (spec/30_encoding.md). `decode` follows the three steps of R43 over the
opcode map of R42 and is total on 32-bit words; `encode` is the table of R47. -/

namespace Sys2Proof

/-- One row of the opcode map (R42). -/
structure OpRow where
  op : BitVec 8
  mnemonic : Mnemonic
  matchBits : Word
  mask : Word
  deriving DecidableEq, Repr

/-- The opcode map, complete (R42). -/
def opTable : List OpRow :=
  [⟨0x00, .nop, 0x00000000, 0xFFFFFFFF⟩,
   ⟨0x01, .srst, 0x01000000, 0xFFFFFFFF⟩,
   ⟨0x02, .clrerr, 0x02000000, 0xFFFFFFFF⟩,
   ⟨0x10, .rsCfg, 0x10000000, 0xFFFFFF00⟩,
   ⟨0x11, .rsClr, 0x11000000, 0xFFFFFFFF⟩,
   ⟨0x12, .rsFeed, 0x12000000, 0xFFFFFF00⟩,
   ⟨0x13, .rsRdpar, 0x13000000, 0xFFFFFF00⟩,
   ⟨0x14, .rsRdgen, 0x14000000, 0xFFFFFF00⟩,
   ⟨0x15, .rsRdcfg, 0x15000000, 0xFFFFFFFF⟩,
   ⟨0x20, .gfMul, 0x20000000, 0xFFFF0000⟩,
   ⟨0x21, .gfExp, 0x21000000, 0xFFFFFF00⟩,
   ⟨0x22, .gfLog, 0x22000000, 0xFFFFFF00⟩,
   ⟨0x23, .gfInv, 0x23000000, 0xFFFFFF00⟩,
   ⟨0x30, .bchFmt, 0x30000000, 0xFFFFFCF8⟩,
   ⟨0x31, .bchVer, 0x31000000, 0xFFFFFFC0⟩]

/-- The opcode OP of a command word, `w[31:24]` (R40). -/
def opcode (w : Word) : BitVec 8 := w.extractLsb' 24 8

/-- The row an opcode selects, if it is assigned (R40: "OP alone selects the command and its format"). -/
def rowOf? (op : BitVec 8) : Option OpRow := opTable.find? (fun r => r.op == op)

/-- Operand A of format B and operand B of format BB, `w[7:0]` (R41). -/
def fieldLow (w : Word) : BitVec 8 := w.extractLsb' 0 8

/-- Operand A of format BB, `w[15:8]` (R41). -/
def fieldHigh (w : Word) : BitVec 8 := w.extractLsb' 8 8

/-- Operand ECL of format F, `w[9:8]` (R41). -/
def fieldEcl (w : Word) : BitVec 2 := w.extractLsb' 8 2

/-- Operand MASK of format F, `w[2:0]` (R41). -/
def fieldMask (w : Word) : BitVec 3 := w.extractLsb' 0 3

/-- Operand VER of format V, `w[5:0]` (R41). -/
def fieldVer (w : Word) : BitVec 6 := w.extractLsb' 0 6

/-- The command of a row with the operands read from the word (R41). -/
def instrOf (m : Mnemonic) (w : Word) : Instr :=
  match m with
  | .nop => .nop
  | .srst => .srst
  | .clrerr => .clrerr
  | .rsCfg => .rsCfg (fieldLow w)
  | .rsClr => .rsClr
  | .rsFeed => .rsFeed (fieldLow w)
  | .rsRdpar => .rsRdpar (fieldLow w)
  | .rsRdgen => .rsRdgen (fieldLow w)
  | .rsRdcfg => .rsRdcfg
  | .gfMul => .gfMul (fieldHigh w) (fieldLow w)
  | .gfExp => .gfExp (fieldLow w)
  | .gfLog => .gfLog (fieldLow w)
  | .gfInv => .gfInv (fieldLow w)
  | .bchFmt => .bchFmt (fieldEcl w) (fieldMask w)
  | .bchVer => .bchVer (fieldVer w)

/-- The three cases of R43: "every 32-bit word is exactly one of these three cases". -/
inductive Decoded where
  /-- Step 3: the word is this command. -/
  | command (i : Instr)
  /-- Step 1: OP is not in the opcode map, and the word raises ILLEGAL_OPCODE (R44). -/
  | illegalOpcode
  /-- Step 2: a reserved bit is 1, and the word raises RESERVED_BITS (R45). -/
  | reservedBits
  deriving DecidableEq, Repr

/-- Decoding a command word, in the three steps of R43. -/
def decode (w : Word) : Decoded :=
  match rowOf? (opcode w) with
  | none => .illegalOpcode
  | some r => if w &&& r.mask = r.matchBits then .command (instrOf r.mnemonic w) else .reservedBits

/-- The command a decoded word is, if it is one. -/
def Decoded.instr? : Decoded → Option Instr
  | .command i => some i
  | .illegalOpcode => none
  | .reservedBits => none

/-- The word of a command: the encoding column of R47. -/
def encode : Instr → Word
  | .nop => 0x00000000
  | .srst => 0x01000000
  | .clrerr => 0x02000000
  | .rsCfg e => 0x10000000 ||| e.setWidth 32
  | .rsClr => 0x11000000
  | .rsFeed d => 0x12000000 ||| d.setWidth 32
  | .rsRdpar i => 0x13000000 ||| i.setWidth 32
  | .rsRdgen i => 0x14000000 ||| i.setWidth 32
  | .rsRdcfg => 0x15000000
  | .gfMul a b => 0x20000000 ||| (a.setWidth 32 <<< 8) ||| b.setWidth 32
  | .gfExp i => 0x21000000 ||| i.setWidth 32
  | .gfLog a => 0x22000000 ||| a.setWidth 32
  | .gfInv a => 0x23000000 ||| a.setWidth 32
  | .bchFmt ecl m => 0x30000000 ||| (ecl.setWidth 32 <<< 8) ||| m.setWidth 32
  | .bchVer v => 0x31000000 ||| v.setWidth 32

/-- Byte lane `j` of a word, bits `[8j+7:8j]`: PORT_BYTE_ORDER = little (spec/20_memory.md R31). -/
def laneOf (w : Word) (j : Fin 4) : Byte := w.extractLsb' (8 * j.val) 8

/-- The word whose byte lanes 0 to 3 are these bytes (R31). -/
def wordOfLanes (b0 b1 b2 b3 : Byte) : Word := b3 ++ b2 ++ b1 ++ b0

/-- Decoding a command from the bytes of its lanes, lane 0 first. Every command is one word of four lanes (R39), so any
other number of bytes is no command word. -/
def decodeLanes : List Byte → Option Decoded
  | [b0, b1, b2, b3] => some (decode (wordOfLanes b0 b1 b2 b3))
  | _ => none

/-- The command the decoder reads from a word whose bits above `nbits` are 0 (the numbering of spec/opcode_table.json,
which is that of R9). -/
def decodeTableWord (nbits w : Nat) : Option Instr :=
  if nbits ≤ 32 then (decode (BitVec.ofNat 32 (w % 2 ^ nbits))).instr? else none

end Sys2Proof
end

