-- ==== Sys2Proof/Config.lean ====
section
/-! DEFINITION. Config.lean: the parameters of spec/00_scope.md R7 at the values the table of R7 gives them, and the
OPEN parameters (QRECC_BASE, BLOCK_TABLE) as constants without a body, of which nothing can be proved but that they
exist. The values are R7's ("The parameters below fix QRECC"); R8 marks seven of them as general knowledge. That they
stand here as definitions, not as arguments, is the model's DESIGN CHOICE (notes/assumptions/1.md). -/

namespace Sys2Proof.Config

/-- PRIM_POLY = x^8+x^4+x^3+x^2+1 (R7, R52). R7's value, which R8 marks as general knowledge: log entry 1. -/
def primPoly : BitVec 9 := 0x11D

/-- ALPHA, the primitive element x (R7, R55). R7's value (R8): log entry 1. -/
def alpha : Elem := 0x02

/-- GEN_B, the first root exponent of the generator (R7, R62). R7's value (R8): log entry 1. -/
def genB : Nat := 0

/-- MAX_E, the largest EC codeword count per block (R7). -/
def maxE : Nat := 30

/-- MAX_N, the largest codeword count per block, data and EC together (R7). -/
def maxN : Nat := 255

/-- FMT_BCH_BITS, the check bits of the format information (R7). -/
def fmtBchBits : Nat := 10

/-- FMT_DATA_BITS + FMT_BCH_BITS, the width of the format word (R7, R77). -/
def fmtWidth : Nat := 15

/-- FMT_GEN, the format BCH generator (R7). R7's value (R8): log entry 1. -/
def fmtGen : BitVec 18 := 0x537

/-- FMT_MASK, the format XOR mask (R7). R7's value (R8): log entry 1. -/
def fmtMask : BitVec 18 := 0x5412

/-- VER_BCH_BITS, the check bits of the version information (R7). -/
def verBchBits : Nat := 12

/-- VER_DATA_BITS + VER_BCH_BITS, the width of the version word (R7, R77). -/
def verWidth : Nat := 18

/-- VER_GEN, the version BCH generator (R7). R7's value (R8): log entry 1. -/
def verGen : BitVec 18 := 0x1F25

/-- VER_MIN, the smallest version that carries version information (R7, R81). -/
def verMin : Nat := 7

/-- VER_MAX, the largest version (R7, R81). -/
def verMax : Nat := 40

/-- ECL_CODE, the 2-bit format code of each EC level (R7, R79). R7's value (R8): log entry 1. -/
def eclCode : EcLevel → BitVec 2
  | .l => 0b01
  | .m => 0b00
  | .q => 0b11
  | .h => 0b10

/-- QRECC_BASE, where the platform puts the port window: an OPEN parameter (R26, R34), so no value stands here
(log entry 2). -/
opaque qreccBase : Nat

/-- One group of BLOCK_TABLE: the number of blocks, the data codewords per block and the EC codewords per block
(spec/42_reed_solomon.md R73). -/
structure BlockGroup where
  blocks : Nat
  k : Nat
  e : Nat
  deriving DecidableEq, Repr

/-- BLOCK_TABLE(version, ecl): an OPEN host parameter (R73), so no entry stands here (log entry 2). -/
opaque blockTable : Nat → EcLevel → List BlockGroup

end Sys2Proof.Config
end

