-- ==== Sys2Proof/Machine/State.lean ====
section
/-! DEFINITION. Machine/State.lean: the state of QRECC (spec/10_state.md R13: E, CNT, PAR, GEN, RES and STAT; EXP and
LOG are constants, R97), the reset line the platform drives (spec/70_reset_and_hazards.md R98), and the host agent's
side of the port (spec/60_exceptions.md R95): the port accesses it will issue, in its order, and the values its reads
returned. The reasons a step can stop stand here too. -/

namespace Sys2Proof.Machine

/-- PAR and GEN: MAX_E = 30 entries of 8 bits (R13, R18, R19). -/
abbrev RegFile := Vector Byte 30

/-- A register file of zeros. -/
def RegFile.zero : RegFile := Vector.replicate 30 0

/-- What the world outside QRECC does to it, one at a time (R36, R98). An offset is one of the 16 of the port space
(spec/20_memory.md R26), and `bits` is the width of the access. -/
inductive HostEvent where
  /-- The host writes `value` at `offset`. -/
  | write (offset : BitVec 4) (bits : Nat) (value : Word)
  /-- The host reads at `offset`. -/
  | read (offset : BitVec 4) (bits : Nat)
  /-- The platform asserts hardware reset (R98). -/
  | assertReset
  /-- The platform ends hardware reset (R98, R99). -/
  | releaseReset
  deriving DecidableEq, Repr

/-- The machine. The first seven fields are all of R13 that is stored: STAT.CFG is computed from E at each read
(R21), its reserved bits read 0, CMD keeps no value (R27), and EXP and LOG are constants (R97). The last three are
the model's own: the reset line and the host (log entries 3 and 4). -/
structure State where
  /-- E, the EC codeword count (R16). "E never holds 31..255", so the 8-bit register is held as a number below 31
  (log entry 5). -/
  e : Fin 31
  /-- CNT, the data codewords fed (R17). -/
  cnt : BitVec 8
  /-- PAR[0..29], the parity register file (R18). -/
  par : RegFile
  /-- GEN[0..29], the generator coefficient file (R19). -/
  gen : RegFile
  /-- RES, the result register (R20). -/
  res : Word
  /-- STAT.ERR (R21). -/
  err : Bool
  /-- STAT.ECODE, STAT[7:4] (R21). -/
  ecode : BitVec 4
  /-- Whether hardware reset is asserted (R98). -/
  inReset : Bool
  /-- The host's port accesses and the platform's resets still to come, the next one first (R36, R95). -/
  pending : List HostEvent
  /-- The values the host's reads have returned, the oldest first (R30, R36). -/
  readLog : List Word
  deriving DecidableEq, Repr

/-- Why the machine stops with a fault. -/
inductive Fault where
  /-- Raised by a host read of STAT that finds an ECODE in 7..15: "never produced. A model that reads one from a
  hardware run has found a bug: `fault`" (spec/93_implementation_defined.md U7). Safe; no state that meets the
  invariant raises it. -/
  | ecodeNeverProduced
  deriving DecidableEq, Repr

/-- Why a step has no meaning. -/
inductive Refusal where
  /-- Raised by an arm of `exec` whose command has no meaning yet. Safe. No arm does. -/
  | notModelled (mnemonic : String)
  /-- Raised by a port access that is not 32 bits wide or not at a multiple of 4: "A model refuses such an access: it
  has no step" (R29, U1). Safe: the hardware must not change state on one. -/
  | accessNotAdmitted
  /-- Raised by a port access while hardware reset is asserted: "a model admits no port access then" (R98, U2).
  Safe. -/
  | accessDuringReset
  /-- Raised when the host issues no further access: QRECC "is passive and steps only when the host writes CMD" (R95),
  and "a model takes one step per port access" (R103). Safe. -/
  | noHostAccess
  deriving DecidableEq, Repr

/-- The machine right after hardware reset (R97), with the reset line released and a host that has issued nothing
(log entries 3 and 4, DESIGN CHOICE). -/
def State.reset : State where
  e := 0
  cnt := 0
  par := RegFile.zero
  gen := RegFile.zero
  res := 0x00000000
  err := false
  ecode := 0
  inReset := false
  pending := []
  readLog := []

end Sys2Proof.Machine
end

