-- ==== Sys2Proof/Machine/Operands.lean ====
section
/-! DEFINITION. Machine/Operands.lean: the operand forms the commands use (spec/30_encoding.md R41,
spec/43_bch.md R79). Every operand is an unsigned field, never extended by sign, scaled or shifted. -/

namespace Sys2Proof.Machine

/-- `zext_32` of a byte (spec/00_scope.md R10). -/
def zext32 (v : Byte) : Word := v.setWidth 32

/-- An 8-bit operand as an index or a count (R41). -/
def indexOf (a : BitVec 8) : Nat := a.toNat

/-- The EC level an ECL operand stands for: the ordinal of R79. -/
def levelOf (ecl : BitVec 2) : EcLevel :=
  if ecl = 0 then .l else if ecl = 1 then .m else if ecl = 2 then .q else .h

/-- The five data bits of the format word, `{ECL_CODE[ECL][1:0], MASK[2:0]}` (R79, R80). -/
def formatData (ecl : BitVec 2) (mask : BitVec 3) : BitVec 5 := Config.eclCode (levelOf ecl) ++ mask

end Sys2Proof.Machine
end

