-- ==== Sys2Proof/Machine/Flags.lean ====
section
/-! DEFINITION. Machine/Flags.lean: the status register (spec/10_state.md R21, R24) and the error codes it records
(spec/60_exceptions.md R83). QRECC has no condition codes. -/

namespace Sys2Proof

/-- The number of an error, as STAT.ECODE holds it (R83). -/
def ErrorCode.code : ErrorCode → BitVec 4
  | .illegalOpcode => 1
  | .reservedBits => 2
  | .illegalOperand => 3
  | .notConfigured => 4
  | .domain => 5
  | .length => 6

namespace Machine

/-- STAT.CFG: "1 exactly when E ≠ 0", computed at each read (R21). -/
def State.cfg (s : State) : Bool := decide (s.e ≠ 0)

/-- STAT as a read sees it: ERR in bit 0, CFG in bit 1, ECODE in bits 7:4, every other bit 0 (R21). -/
def State.statWord (s : State) : Word :=
  (0#24 ++ s.ecode ++ 0#2 ++ BitVec.ofBool s.cfg ++ BitVec.ofBool s.err : BitVec 32)

/-- Whether ECODE holds one of its legal values 0..6 (R21). -/
def State.ecodeLegal (s : State) : Bool := decide (s.ecode.toNat ≤ 6)

end Machine

end Sys2Proof
end

