-- ==== Sys2Proof/Machine/Ops.lean ====
section
/-! DEFINITION. Machine/Ops.lean: the named operations on the registers that the commands share. Taking an error is
`raiseErr` (spec/60_exceptions.md R85); returning from one is `clearErr` (R90: no trap is taken, and CLRERR, SRST and
reset are the only ways to clear the record). -/

namespace Sys2Proof.Machine

/-- `RES <- v` (spec/10_state.md R20). -/
def State.setRes (s : State) (v : Word) : State := { s with res := v }

/-- The error record, "the whole effect of `raise Err(code)`": it is written only while ERR = 0 (R85, R86). -/
def raiseErr (c : ErrorCode) (s : State) : State :=
  if s.err then s else { s with err := true, ecode := c.code }

/-- `STAT.ERR <- 0; STAT.ECODE <- 0` (spec/40_control.md R51). -/
def clearErr (s : State) : State := { s with err := false, ecode := 0 }

/-- The registers go to their reset values (spec/70_reset_and_hazards.md R97), as SRST and hardware reset both do
(R50). The reset line and the host keep theirs. -/
def resetRegs (s : State) : State :=
  { s with
    e := 0
    cnt := 0
    par := RegFile.zero
    gen := RegFile.zero
    res := 0x00000000
    err := false
    ecode := 0 }

/-- The block in progress is dropped: PAR and CNT are written to 0 (spec/42_reed_solomon.md R66, R67). -/
def clearBlock (s : State) : State := { s with par := RegFile.zero, cnt := 0 }

/-- A command ends by returning a byte in RES, zero-extended (R20). -/
def finishByte (v : Byte) (s : State) : Host.Outcome State Fault Refusal := .next (s.setRes (zext32 v))

/-- A command ends with `raise Err(c)` and has no other effect (R85, R87: the machine goes on). -/
def failWith (c : ErrorCode) (s : State) : Host.Outcome State Fault Refusal := .next (raiseErr c s)

/-- An entry of a register file at an index below E, and so below MAX_E. -/
def entryBelow (f : RegFile) (e : Fin 31) (i : Nat) (h : i < e.val) : Byte := f[i]'(by have := e.isLt; omega)

/-- The indexed read that RS_RDPAR and RS_RDGEN share: NOT_CONFIGURED while E = 0, ILLEGAL_OPERAND at an index not
below E, and otherwise the entry in RES; it destroys nothing (R69, R70). -/
def readEntry (f : RegFile) (a : BitVec 8) (s : State) : Host.Outcome State Fault Refusal :=
  if s.e = 0 then failWith .notConfigured s
  else if h : indexOf a < s.e.val then finishByte (entryBelow f s.e (indexOf a) h) s
  else failWith .illegalOperand s

end Sys2Proof.Machine
end

