-- ==== Sys2Proof/Machine/BchUnit.lean ====
section
/-! DEFINITION. Machine/BchUnit.lean: the BCH encoder of the format and version information (spec/43_bch.md). A
polynomial over GF(2) is a bit vector whose bit `j` is the coefficient of x^j (spec/00_scope.md R11); the widest is
the 18-bit version word. -/

namespace Sys2Proof.Machine

/-- The loop of R77 for `j` from `m + n − 1` down to `m`: `if v[j] = 1: v <- v ^ (g << (j - m))`. -/
def bchReduce (g : BitVec 18) (m : Nat) : Nat → BitVec 18 → BitVec 18
  | 0, v => v
  | n + 1, v => bchReduce g m n (if v.getLsbD (m + n) then v ^^^ (g <<< n) else v)

/-- `bch_rem(v, g)` for a `v` of the given width and a `g` of degree `m` (R77). -/
def bchRem (width m : Nat) (v g : BitVec 18) : BitVec 18 := bchReduce g m (width - m) v

/-- The low `m` bits of a polynomial, `s[m-1:0]`. -/
def lowBits (m : Nat) (s : BitVec 18) : BitVec 18 := s &&& BitVec.ofNat 18 (2 ^ m - 1)

/-- One data bit through the shift register of R78. -/
def serialStep (m : Nat) (g : BitVec 18) (s : BitVec 18) (b : Bool) : BitVec 18 :=
  let shifted := lowBits m (s <<< 1)
  if b ^^ s.getLsbD (m - 1) then shifted ^^^ lowBits m g else shifted

/-- The shift register after the data bits `n − 1` down to 0 of `f`, most significant first (R78). The machine
computes `bchRem`; "the choice between the two is unobservable". -/
def bchSerial (m : Nat) (g f : BitVec 18) : Nat → BitVec 18 → BitVec 18
  | 0, s => s
  | n + 1, s => bchSerial m g f n (serialStep m g s (f.getLsbD n))

/-- The format word before the mask: the five data bits above their ten check bits (R80). -/
def formatRaw (ecl : BitVec 2) (mask : BitVec 3) : BitVec 18 :=
  let v := (formatData ecl mask).setWidth 18 <<< Config.fmtBchBits
  v ||| bchRem Config.fmtWidth Config.fmtBchBits v Config.fmtGen

/-- The 15-bit format information word (R80). -/
def formatWord (ecl : BitVec 2) (mask : BitVec 3) : BitVec 18 := formatRaw ecl mask ^^^ Config.fmtMask

/-- The 18-bit version information word: six data bits above their twelve check bits, with no mask (R81). -/
def versionWord (ver : BitVec 6) : BitVec 18 :=
  let v := ver.setWidth 18 <<< Config.verBchBits
  v ||| bchRem Config.verWidth Config.verBchBits v Config.verGen

/-- BCH_FMT: RES receives the format word (R80). -/
def execBchFmt (ecl : BitVec 2) (mask : BitVec 3) (s : State) : Host.Outcome State Fault Refusal :=
  .next (s.setRes ((formatWord ecl mask).setWidth 32))

/-- BCH_VER: ILLEGAL_OPERAND outside VER_MIN..VER_MAX; otherwise RES receives the version word (R81). -/
def execBchVer (ver : BitVec 6) (s : State) : Host.Outcome State Fault Refusal :=
  if ver.toNat < Config.verMin ∨ ver.toNat > Config.verMax then failWith .illegalOperand s
  else .next (s.setRes ((versionWord ver).setWidth 32))

end Sys2Proof.Machine
end

