-- ==== Sys2Proof/Machine/Control.lean ====
section
/-! DEFINITION. Machine/Control.lean: the control commands (spec/40_control.md). -/

namespace Sys2Proof.Machine

/-- NOP: no state changes (R49). -/
def execNop (s : State) : Host.Outcome State Fault Refusal := .next s

/-- SRST: the reset state, exactly as a hardware reset gives it (R50). -/
def execSrst (s : State) : Host.Outcome State Fault Refusal := .next (resetRegs s)

/-- CLRERR: the error record is cleared and nothing else (R51). -/
def execClrerr (s : State) : Host.Outcome State Fault Refusal := .next (clearErr s)

end Sys2Proof.Machine
end

