-- ==== Sys2Proof/Machine/GfArith.lean ====
section
/-! DEFINITION. Machine/GfArith.lean: the field GF(256) (spec/41_gf_arith.md R52 to R57) and the four commands that
expose it (R58 to R61). -/

namespace Sys2Proof.Machine

/-- Field addition and subtraction (R53). -/
def gfAdd (a b : Elem) : Elem := a ^^^ b

/-- One step of R54 and R55: `t << 1`, and "if t[8] = 1: t <- t ^ 0x11D". -/
def shiftReduce (t : BitVec 9) : BitVec 9 :=
  let u := t <<< 1
  if u.getLsbD 8 then u ^^^ Config.primPoly else u

/-- The loop of R54 over the bits `j` of `b`. -/
def gfMulLoop (b : Elem) : List Nat → BitVec 9 → Elem → Elem
  | [], _, r => r
  | j :: js, t, r => gfMulLoop b js (shiftReduce t) (if b.getLsbD j then gfAdd r (t.setWidth 8) else r)

/-- Field multiplication by shift and add (R54). -/
def gfMul (a b : Elem) : Elem := gfMulLoop b (List.range 8) (a.setWidth 9) 0

/-- The next power of α: the recurrence of the EXP table (R55). -/
def timesAlpha (a : Elem) : Elem := (shiftReduce (a.setWidth 9)).setWidth 8

/-- EXP[i] = α^i (R22, R55). The table holds `i` in 0..254. -/
def gfExpTable : Nat → Elem
  | 0 => 0x01
  | i + 1 => timesAlpha (gfExpTable i)

/-- EXP at an exponent reduced modulo 255, as every rule indexes it (R56, R57, R59, R62). -/
def alphaPow (i : Nat) : Elem := gfExpTable (i % 255)

/-- LOG[a], "the unique i in 0..254 with α^i = a"; LOG[0] does not exist (R22, R55). -/
def gfLog? (a : Elem) : Option Nat := (List.range 255).find? (fun i => gfExpTable i == a)

/-- The inverse of `a`, EXP[(255 − LOG[a]) mod 255]; gf_inv(0) does not exist (R57). -/
def gfInv? (a : Elem) : Option Elem := (gfLog? a).map (fun l => alphaPow (255 - l))

/-- The product by the tables (R56). The machine multiplies by `gfMul`; "the results cannot be told apart". -/
def gfMulByTable (a b : Elem) : Elem :=
  match gfLog? a, gfLog? b with
  | some l, some m => alphaPow (l + m)
  | some _, none => 0
  | none, some _ => 0
  | none, none => 0

/-- GF_MUL: RES receives the field product (R58). -/
def execGfMul (a b : BitVec 8) (s : State) : Host.Outcome State Fault Refusal := finishByte (gfMul a b) s

/-- GF_EXP: RES receives EXP[A mod 255] (R59). -/
def execGfExp (a : BitVec 8) (s : State) : Host.Outcome State Fault Refusal := finishByte (alphaPow (indexOf a)) s

/-- GF_LOG: DOMAIN at 0, which has no logarithm; otherwise RES receives LOG[A] (R60). -/
def execGfLog (a : BitVec 8) (s : State) : Host.Outcome State Fault Refusal :=
  match gfLog? a with
  | none => failWith .domain s
  | some l => finishByte (BitVec.ofNat 8 l) s

/-- GF_INV: DOMAIN at 0, which has no inverse; otherwise RES receives the inverse (R61). -/
def execGfInv (a : BitVec 8) (s : State) : Host.Outcome State Fault Refusal :=
  match gfInv? a with
  | none => failWith .domain s
  | some v => finishByte v s

end Sys2Proof.Machine
end

