-- ==== Sys2Proof/Machine/ReedSolomon.lean ====
section
/-! DEFINITION. Machine/ReedSolomon.lean: the Reed–Solomon encoder of one block (spec/42_reed_solomon.md). A
polynomial over GF(256) is the list of its coefficients, highest degree first (spec/00_scope.md R11). -/

namespace Sys2Proof.Machine

/-- `c·x + c·r`: the polynomial `c` times the factor `(x + r)`, one pass of the loop of R62. -/
def timesRoot (c : List Elem) (r : Elem) : List Elem :=
  List.zipWith gfAdd (c ++ [0x00]) (0x00 :: c.map (fun cj => gfMul cj r))

/-- The generator of degree `n` with its leading 1: the product of `(x + α^(GEN_B+i))` for `i` below `n` (R62). -/
def genPoly : Nat → List Elem
  | 0 => [0x01]
  | n + 1 => timesRoot (genPoly n) (alphaPow (Config.genB + n))

/-- `gen_coeffs(E)`: the coefficients G_0 to G_(E−1), the leading 1 dropped (R62). -/
def genCoeffs (e : Nat) : List Elem := (genPoly e).tail

/-- What RS_CFG loads into GEN: G_i below E, and 0 from there on (R66). -/
def genFile (e : Nat) : RegFile :=
  let g := genCoeffs e
  Vector.ofFn (fun i : Fin 30 => if i.val < e then g.getD i.val 0x00 else 0x00)

/-- One entry of PAR after RS_FEED, every right-hand side read before the command (R68): the entry above it and the
feedback through GEN below index E−1, the feedback alone at E−1, and the old value from E on. -/
def feedEntry (e : Fin 31) (par gen : RegFile) (fb : Elem) (i : Fin 30) : Elem :=
  if h : i.val + 1 < e.val then gfAdd (par[i.val + 1]'(by have := e.isLt; omega)) (gfMul fb gen[i])
  else if i.val + 1 = e.val then gfMul fb gen[i]
  else par[i]

/-- PAR after RS_FEED of the codeword `d` (R68): `fb <- A ^ PAR[0]`, then every entry. -/
def feedPar (e : Fin 31) (par gen : RegFile) (d : Elem) : RegFile :=
  let fb := gfAdd d par[0]
  Vector.ofFn (feedEntry e par gen fb)

/-- RS_CFG: ILLEGAL_OPERAND unless 1 ≤ A ≤ MAX_E; otherwise E <- A, GEN is loaded, PAR and CNT are cleared (R66). -/
def execRsCfg (a : BitVec 8) (s : State) : Host.Outcome State Fault Refusal :=
  if indexOf a = 0 ∨ indexOf a > Config.maxE then failWith .illegalOperand s
  else .next (clearBlock { s with e := Fin.ofNat 31 (indexOf a), gen := genFile (indexOf a) })

/-- RS_CLR: PAR and CNT are cleared; legal when E = 0 (R67). -/
def execRsClr (s : State) : Host.Outcome State Fault Refusal := .next (clearBlock s)

/-- RS_FEED: NOT_CONFIGURED while E = 0, LENGTH when CNT + E ≥ MAX_N; otherwise PAR takes the codeword in and CNT
counts it (R68). CNT + E is compared as a number, not modulo 256 (R17). -/
def execRsFeed (a : BitVec 8) (s : State) : Host.Outcome State Fault Refusal :=
  if s.e = 0 then failWith .notConfigured s
  else if s.cnt.toNat + s.e.val ≥ Config.maxN then failWith .length s
  else .next { s with par := feedPar s.e s.par s.gen a, cnt := s.cnt + 1 }

/-- RS_RDPAR: RES receives PAR[A] (R69). -/
def execRsRdpar (a : BitVec 8) (s : State) : Host.Outcome State Fault Refusal := readEntry s.par a s

/-- RS_RDGEN: RES receives GEN[A] (R70). -/
def execRsRdgen (a : BitVec 8) (s : State) : Host.Outcome State Fault Refusal := readEntry s.gen a s

/-- The word RS_RDCFG returns, `{16'h0000, CNT[7:0], E[7:0]}` (R71). -/
def State.cfgWord (s : State) : Word := (0#16 ++ s.cnt ++ BitVec.ofNat 8 s.e.val : BitVec 32)

/-- RS_RDCFG: RES receives E and CNT (R71). -/
def execRsRdcfg (s : State) : Host.Outcome State Fault Refusal := .next (s.setRes s.cfgWord)

/-! What the encoder computes (R63), by long division: no command calls these; the claims about PAR are stated in
terms of them. -/

/-- The polynomial `q` added to the leading coefficients of `p`. -/
def addLeading : List Elem → List Elem → List Elem
  | [], _ => []
  | p :: ps, [] => p :: ps
  | p :: ps, q :: qs => gfAdd p q :: addLeading ps qs

/-- `n` steps of long division by the monic polynomial with lower coefficients `g`: each step drops the leading
coefficient `c` and adds `c·g` below it. -/
def divideSteps (g : List Elem) : Nat → List Elem → List Elem
  | 0, p => p
  | _ + 1, [] => []
  | n + 1, c :: p => divideSteps g n (addLeading p (g.map (fun gi => gfMul c gi)))

/-- The EC codewords p_0 to p_(E−1) of a block: the remainder of D(x)·x^E by g_E(x) (R63). -/
def rsParity (e : Nat) (data : List Byte) : List Elem :=
  divideSteps (genCoeffs e) data.length (data ++ List.replicate e 0x00)

/-- A polynomial's value at a point, "highest degree first by Horner's rule" (R65). -/
def polyEval (p : List Elem) (x : Elem) : Elem := p.foldl (fun acc c => gfAdd (gfMul acc x) c) 0x00

/-- The entries of PAR or GEN below E, in order (R18, R19). -/
def entriesBelow (f : RegFile) (e : Fin 31) : List Elem := f.toList.take e.val

end Sys2Proof.Machine
end

