-- ==== Sys2Proof/Machine/Dispatch.lean ====
section
/-! DEFINITION. Machine/Dispatch.lean: the effect of each command, one arm per constructor. -/

namespace Sys2Proof.Machine

def exec (i : Instr) (s : State) : Host.Outcome State Fault Refusal :=
  match i with
  | .nop => Sys2Proof.Machine.execNop s
  | .srst => Sys2Proof.Machine.execSrst s
  | .clrerr => Sys2Proof.Machine.execClrerr s
  | .rsCfg a => Sys2Proof.Machine.execRsCfg a s
  | .rsClr => Sys2Proof.Machine.execRsClr s
  | .rsFeed a => Sys2Proof.Machine.execRsFeed a s
  | .rsRdpar a => Sys2Proof.Machine.execRsRdpar a s
  | .rsRdgen a => Sys2Proof.Machine.execRsRdgen a s
  | .rsRdcfg => Sys2Proof.Machine.execRsRdcfg s
  | .gfMul a b => Sys2Proof.Machine.execGfMul a b s
  | .gfExp a => Sys2Proof.Machine.execGfExp a s
  | .gfLog a => Sys2Proof.Machine.execGfLog a s
  | .gfInv a => Sys2Proof.Machine.execGfInv a s
  | .bchFmt ecl mask => Sys2Proof.Machine.execBchFmt ecl mask s
  | .bchVer ver => Sys2Proof.Machine.execBchVer ver s

end Sys2Proof.Machine
end

