-- ==== Sys2Proof/Machine/Port.lean ====
section
/-! DEFINITION. Machine/Port.lean: the host port (spec/20_memory.md) and the reset input
(spec/70_reset_and_hazards.md R98). QRECC's one address space is the 16-byte port space (R25, R26). -/

namespace Sys2Proof.Machine

/-- A host access is admitted when it is 32 bits wide, at an offset that is a multiple of 4 (R29). -/
def admitted (offset : BitVec 4) (bits : Nat) : Bool := bits == 32 && offset.toNat % 4 == 0

/-- One command: the word is decoded, checked, and performed or rejected (R27). A word that is no command is an error
like any other: the record of R85 and no other effect (R44, R45). -/
def runCommand (w : Word) (s : State) : Host.Outcome State Fault Refusal :=
  match decode w with
  | .command i => exec i s
  | .illegalOpcode => failWith .illegalOpcode s
  | .reservedBits => failWith .reservedBits s

/-- `PortWrite(offset, v)` at an admitted offset: CMD runs a command, and a write to RES, STAT or the reserved offset
is ignored (R26, R27, R28). -/
def portWrite (offset : BitVec 4) (v : Word) (s : State) : Host.Outcome State Fault Refusal :=
  if offset = 0x0 then runCommand v s else .next s

/-- The value of `PortRead(offset)` at an admitted offset: RES at 0x4, STAT at 0x8, and 0 at CMD and at the reserved
offset (R26, R28). -/
def portValue (offset : BitVec 4) (s : State) : Word :=
  if offset = 0x4 then s.res else if offset = 0x8 then s.statWord else 0x00000000

/-- The host receives a value it read; no read changes a register (R28). -/
def State.receive (s : State) (v : Word) : State := { s with readLog := s.readLog ++ [v] }

/-- `PortRead(offset)` at an admitted offset. Reading an ECODE that is never produced is a fault (U7). -/
def portRead (offset : BitVec 4) (s : State) : Host.Outcome State Fault Refusal :=
  if offset = 0x8 ∧ s.ecodeLegal = false then .fault .ecodeNeverProduced
  else .next (s.receive (portValue offset s))

/-- The reset line is asserted: the registers go to the reset state (R98). -/
def assertReset (s : State) : State := { resetRegs s with inReset := true }

/-- The reset line is released. -/
def releaseReset (s : State) : State := { s with inReset := false }

/-- One thing the outside world does (R36). A port access is refused while reset is asserted (R98) and when it is not
admitted (R29). -/
def serve (ev : HostEvent) (s : State) : Host.Outcome State Fault Refusal :=
  match ev with
  | .assertReset => .next (assertReset s)
  | .releaseReset => .next (releaseReset s)
  | .write offset bits v =>
    if s.inReset then .refused .accessDuringReset
    else if admitted offset bits then portWrite offset v s
    else .refused .accessNotAdmitted
  | .read offset bits =>
    if s.inReset then .refused .accessDuringReset
    else if admitted offset bits then portRead offset s
    else .refused .accessNotAdmitted

/-- The offset a platform address selects in the window of 16 bytes at QRECC_BASE, if it lies in the window (R26,
R34). -/
def windowOffset? (addr : Nat) : Option (BitVec 4) :=
  if Config.qreccBase ≤ addr ∧ addr < Config.qreccBase + 16 then some (BitVec.ofNat 4 (addr - Config.qreccBase)) else none

/-- A platform write as an access to QRECC; an address outside the window is not QRECC's (R34). -/
def busWrite? (addr bits : Nat) (v : Word) : Option HostEvent := (windowOffset? addr).map (fun o => .write o bits v)

/-- A platform read as an access to QRECC (R34). -/
def busRead? (addr bits : Nat) : Option HostEvent := (windowOffset? addr).map (fun o => .read o bits)

end Sys2Proof.Machine
end

