-- ==== Sys2Proof/Machine/Step.lean ====
section
/-! DEFINITION. Machine/Step.lean: one step is one port access or one change of the reset line
(spec/70_reset_and_hazards.md R103), taken in the order the outside world issues them (spec/20_memory.md R36). -/

namespace Sys2Proof.Machine

/-- The next event of the host is served to its end before the step is over (R100). With no event there is no step
(spec/60_exceptions.md R95). -/
def step (s : State) : Host.Outcome State Fault Refusal :=
  match s.pending with
  | [] => .refused .noHostAccess
  | ev :: rest => serve ev { s with pending := rest }

/-- The state whose next step runs the command word `w`: QRECC fetches nothing (spec/10_state.md R15), and a program
is the host's sequence of port accesses, so the write of the word to CMD becomes the host's next access, with the
reset line released (log entry 6). -/
def State.withFetchWord (s : State) (nbits w : Nat) : State :=
  { s with inReset := false, pending := .write 0x0 32 (BitVec.ofNat 32 (w % 2 ^ nbits)) :: s.pending }

end Sys2Proof.Machine
end

