-- ==== Sys2Proof/Machine/Assembler.lean ====
section
/-! DEFINITION. Machine/Assembler.lean: the assembler of spec/30_encoding.md R47: from the characters of a line to the
term it writes, and from the term to the command word. Case matters, blanks are spaces, and a line that is not of the
form of R47 is no line (log entry 7). -/

namespace Sys2Proof.Machine

/-- The command a mnemonic and its operand values make, if there are as many as R47 gives it. -/
def buildInstr (m : Mnemonic) (vs : List Nat) : Option Instr :=
  match m, vs with
  | .nop, [] => some .nop
  | .srst, [] => some .srst
  | .clrerr, [] => some .clrerr
  | .rsCfg, [a] => some (.rsCfg (BitVec.ofNat 8 a))
  | .rsClr, [] => some .rsClr
  | .rsFeed, [a] => some (.rsFeed (BitVec.ofNat 8 a))
  | .rsRdpar, [a] => some (.rsRdpar (BitVec.ofNat 8 a))
  | .rsRdgen, [a] => some (.rsRdgen (BitVec.ofNat 8 a))
  | .rsRdcfg, [] => some .rsRdcfg
  | .gfMul, [a, b] => some (.gfMul (BitVec.ofNat 8 a) (BitVec.ofNat 8 b))
  | .gfExp, [a] => some (.gfExp (BitVec.ofNat 8 a))
  | .gfLog, [a] => some (.gfLog (BitVec.ofNat 8 a))
  | .gfInv, [a] => some (.gfInv (BitVec.ofNat 8 a))
  | .bchFmt, [e, k] => some (.bchFmt (BitVec.ofNat 2 e) (BitVec.ofNat 3 k))
  | .bchVer, [v] => some (.bchVer (BitVec.ofNat 6 v))
  | _, _ => none

/-- Assembling one command: an ill-formed one is refused (R47). -/
def assemble (c : AsmCommand) : Option Instr :=
  if c.wf then buildInstr c.mnemonic (c.operands.map AsmOperand.value) else none

/-- The characters of each mnemonic (R42). -/
def mnemonicNames : List (List Char × Mnemonic) :=
  [(['N','O','P'], .nop), (['S','R','S','T'], .srst), (['C','L','R','E','R','R'], .clrerr),
   (['R','S','_','C','F','G'], .rsCfg), (['R','S','_','C','L','R'], .rsClr), (['R','S','_','F','E','E','D'], .rsFeed),
   (['R','S','_','R','D','P','A','R'], .rsRdpar), (['R','S','_','R','D','G','E','N'], .rsRdgen),
   (['R','S','_','R','D','C','F','G'], .rsRdcfg)] ++
  [(['G','F','_','M','U','L'], .gfMul), (['G','F','_','E','X','P'], .gfExp), (['G','F','_','L','O','G'], .gfLog),
   (['G','F','_','I','N','V'], .gfInv), (['B','C','H','_','F','M','T'], .bchFmt), (['B','C','H','_','V','E','R'], .bchVer)]

/-- The value of a hexadecimal digit. -/
def digitValue? (c : Char) : Option Nat :=
  if '0' ≤ c ∧ c ≤ '9' then some (c.toNat - '0'.toNat)
  else if 'a' ≤ c ∧ c ≤ 'f' then some (c.toNat - 'a'.toNat + 10)
  else if 'A' ≤ c ∧ c ≤ 'F' then some (c.toNat - 'A'.toNat + 10)
  else none

/-- The digits of a number in a base, most significant first; there is at least one. -/
def digitsValue? (base : Nat) : Nat → List Char → Option Nat
  | acc, [] => some acc
  | acc, c :: cs =>
    match digitValue? c with
    | some d => if d < base then digitsValue? base (acc * base + d) cs else none
    | none => none

/-- "Numbers are decimal, or hexadecimal with `0x`" (R47). -/
def parseNumber : List Char → Option Nat
  | [] => none
  | '0' :: 'x' :: c :: cs => digitsValue? 16 0 (c :: cs)
  | c :: cs => digitsValue? 10 0 (c :: cs)

/-- An operand: a number, or the letter of an EC level (R47). -/
def parseOperand : List Char → Option AsmOperand
  | ['L'] => some (.letter .l)
  | ['M'] => some (.letter .m)
  | ['Q'] => some (.letter .q)
  | ['H'] => some (.letter .h)
  | cs => (parseNumber cs).map .num

/-- The text without the blanks around it. -/
def trimBlanks (cs : List Char) : List Char :=
  ((cs.dropWhile (· == ' ')).reverse.dropWhile (· == ' ')).reverse

/-- The pieces between commas. -/
def splitCommas : List Char → List (List Char)
  | [] => [[]]
  | c :: cs =>
    match splitCommas cs with
    | [] => [[c]]
    | f :: fs => if c = ',' then [] :: f :: fs else (c :: f) :: fs

/-- The operands after a mnemonic, "separated by commas" (R47). -/
def parseOperands (cs : List Char) : Option (List AsmOperand) :=
  if trimBlanks cs = [] then some [] else ((splitCommas cs).map trimBlanks).mapM parseOperand

/-- The first word of a line and what follows it. -/
def parseWords (name rest : List Char) : Option AsmLine :=
  match mnemonicNames.lookup name with
  | some m => (parseOperands rest).map (fun ops => .command ⟨m, ops⟩)
  | none =>
    if name = ['r','d'] then
      if trimBlanks rest = ['R','E','S'] then some .rdRes
      else if trimBlanks rest = ['S','T','A','T'] then some .rdStat
      else none
    else if name = ['.','w','o','r','d'] then (parseNumber (trimBlanks rest)).map .word
    else none

/-- One line of text: "`;` starts a comment" (R47). -/
def parseLine (cs : List Char) : Option AsmLine :=
  let body := trimBlanks (cs.takeWhile (· != ';'))
  if body = [] then some .blank
  else parseWords (body.takeWhile (· != ' ')) (body.dropWhile (· != ' '))

end Sys2Proof.Machine
end

