-- ==== Sys2Proof/Machine/HostProtocol.lean ====
section
/-! DEFINITION. Machine/HostProtocol.lean: what the spec says of the host, as lists of host events: the pseudo-commands
(spec/30_encoding.md R48), the block split and the interleave (spec/42_reed_solomon.md R73 to R76). QRECC checks none
of it. -/

namespace Sys2Proof.Machine

/-- The host writes a command to CMD (R27, R47). -/
def cmd (i : Instr) : HostEvent := .write 0x0 32 (encode i)

/-- `rd RES` (R47). -/
def rdRes : HostEvent := .read 0x4 32

/-- `rd STAT` (R47). -/
def rdStat : HostEvent := .read 0x8 32

/-- The host events of one assembler line; an ill-formed one is refused (R47). -/
def lineEvents : AsmLine → Option (List HostEvent)
  | .command c => (assemble c).map (fun i => [cmd i])
  | .word n => if wordFits n then some [.write 0x0 32 (BitVec.ofNat 32 n)] else none
  | .rdRes => some [rdRes]
  | .rdStat => some [rdStat]
  | .blank => some []

/-- The host events of a text, one line after the other (R47). -/
def programEvents (lines : List (List Char)) : Option (List HostEvent) :=
  (lines.mapM (fun cs => (parseLine cs).bind lineEvents)).map List.flatten

/-- The feeds of a block, first data codeword first (R48, spec/20_memory.md R32). -/
def feeds (ds : List Byte) : List HostEvent := ds.map (fun d => cmd (.rsFeed d))

/-- `RS_BLOCK e, d0, ..., d(k−1)` (R48). -/
def rsBlock (e : Byte) (ds : List Byte) : List HostEvent := cmd (.rsCfg e) :: feeds ds

/-- The condition of RS_BLOCK, `1 ≤ e ≤ 30, k ≤ 255 − e` (R48). -/
def rsBlockOk (e : Byte) (ds : List Byte) : Bool := decide (1 ≤ e.toNat ∧ e.toNat ≤ 30 ∧ ds.length ≤ 255 - e.toNat)

/-- `RS_REFEED d0, ..., d(k−1)` (R48). -/
def rsRefeed (ds : List Byte) : List HostEvent := cmd .rsClr :: feeds ds

/-- The condition of RS_REFEED: E already configured, `k ≤ 255 − E` (R48). -/
def rsRefeedOk (s : State) (ds : List Byte) : Bool := decide (s.e ≠ 0 ∧ ds.length ≤ 255 - s.e.val)

/-- `RS_READALL e`: RS_RDPAR and `rd RES` for each index below `e` (R48); an operand is a byte (R47), so no index
wraps. -/
def rsReadall (e : Byte) : List HostEvent :=
  (List.range e.toNat).flatMap (fun i => [cmd (.rsRdpar (BitVec.ofNat 8 i)), rdRes])

/-- The condition of RS_READALL, `e = current E` (R48). -/
def rsReadallOk (s : State) (e : Byte) : Bool := decide (e.toNat = s.e.val)

/-- `GF_DIV a, b`, up to the read of t (R48). -/
def gfDivFirst (b : Byte) : List HostEvent := [cmd (.gfInv b), rdRes]

/-- `GF_DIV a, b`, after the host has read t (R48). -/
def gfDivSecond (a : Byte) (t : Word) : List HostEvent := [cmd (.gfMul a (t.setWidth 8))]

/-- The condition of GF_DIV, `b ≠ 0`: "b = 0 raises DOMAIN at GF_INV" (R48). -/
def gfDivOk (b : Byte) : Bool := decide (b ≠ 0)

/-- `GF_SQR a`, which has no condition (R48). -/
def gfSqr (a : Byte) : List HostEvent := [cmd (.gfMul a a)]

/-- A block of a version and EC level: k data codewords and E EC codewords (R12, R73). -/
structure Block where
  k : Nat
  e : Nat
  deriving DecidableEq, Repr

/-- The blocks of a table entry, "every block of every group in order" (R73, R74). -/
def blocksOf (groups : List Config.BlockGroup) : List Block :=
  groups.flatMap (fun g => List.replicate g.blocks ⟨g.k, g.e⟩)

/-- The blocks of a version and EC level (R73). -/
def symbolBlocks (version : Nat) (ecl : EcLevel) : List Block := blocksOf (Config.blockTable version ecl)

/-- The host splits the padded data codewords "into blocks in table order"; the sequence "must be used up exactly"
(R74). -/
def splitData : List Block → List Byte → Option (List (List Byte))
  | [], [] => some []
  | [], _ :: _ => none
  | b :: bs, ds => if ds.length < b.k then none else (splitData bs (ds.drop b.k)).map (fun rest => ds.take b.k :: rest)

/-- Step 1 of R75: `RS_CFG E_b`, or `RS_CLR` if E already equals E_b. Where E already equals E_b the rule leaves the
host both (RS_CFG with an unchanged E is legal too, R66): that this host then issues RS_CLR is a DESIGN CHOICE (log
entry 15). -/
def blockSetup (current e : Nat) : HostEvent := if current = e then cmd .rsClr else cmd (.rsCfg (BitVec.ofNat 8 e))

/-- What the host issues for one block, when E is `current`: set up, feed, read (R75). The claims about it are for an
E_b of 1..30, the only ones RS_CFG takes (R66). -/
def blockScript (current e : Nat) (ds : List Byte) : List HostEvent :=
  blockSetup current e :: (feeds ds ++ rsReadall (BitVec.ofNat 8 e))

/-- What the host issues for all blocks, one whole block after the other (R75). R75 lets the blocks come "in any order";
that they come in the order of the list, table order, is a DESIGN CHOICE (log entry 15). -/
def blocksScript : Nat → List (Block × List Byte) → List HostEvent
  | _, [] => []
  | current, (b, ds) :: rest => blockScript current b.e ds ++ blocksScript b.e rest

/-- The EC codewords of each block, from the values the reads returned (R75). -/
def collectEc : List Block → List Word → List (List Byte)
  | [], _ => []
  | b :: bs, ws => (ws.take b.e).map (fun w => w.setWidth 8) :: collectEc bs (ws.drop b.e)

/-- Column `c` of some rows, in order; an exhausted row contributes nothing (R76). -/
def column (rows : List (List Byte)) (c : Nat) : List Byte := rows.filterMap (fun row => row[c]?)

/-- The length of the longest row. -/
def longest (rows : List (List Byte)) : Nat := rows.foldr (fun row m => max row.length m) 0

/-- Rows read column by column (R76). -/
def byColumns (rows : List (List Byte)) : List Byte := (List.range (longest rows)).flatMap (column rows)

/-- The final codeword sequence: all data codewords column by column, then all EC codewords "the same way" (R76). -/
def interleave (data ec : List (List Byte)) : List Byte := byColumns data ++ byColumns ec

end Sys2Proof.Machine
end

