-- ==== Sys2Proof/Safety.lean ====
section
/-! DEFINITION. Safety.lean: the terms in which claims about QRECC are stated: which error a command raises
(spec/60_exceptions.md R83, R84), when the results of a sequence may be trusted (R87, R91), and the invariant that
reset has and every step keeps (spec/10_state.md R16 to R21). -/

namespace Sys2Proof.Safety

open Sys2Proof.Machine

/-- Whether a cause of R83 applies to a decoded command, written from the table's columns "cause" and "raised by". -/
def applies (c : ErrorCode) (i : Instr) (s : State) : Bool :=
  match c, i with
  | .notConfigured, .rsFeed _ => s.e == 0
  | .notConfigured, .rsRdpar _ => s.e == 0
  | .notConfigured, .rsRdgen _ => s.e == 0
  | .illegalOperand, .rsCfg a => a.toNat < 1 || 30 < a.toNat
  | .illegalOperand, .rsRdpar a => s.e.val ≤ a.toNat
  | .illegalOperand, .rsRdgen a => s.e.val ≤ a.toNat
  | .illegalOperand, .bchVer v => v.toNat < 7 || 40 < v.toNat
  | .domain, .gfLog a => a == 0
  | .domain, .gfInv a => a == 0
  | .length, .rsFeed _ => 255 ≤ s.cnt.toNat + s.e.val
  | _, _ => false

/-- The fixed order in which a command is checked (R84). -/
def checkOrder : List ErrorCode :=
  [.illegalOpcode, .reservedBits, .notConfigured, .illegalOperand, .domain, .length]

/-- The error a decoded command raises, "only the first error that applies" (R84). -/
def firstError (i : Instr) (s : State) : Option ErrorCode := checkOrder.find? (fun c => applies c i s)

/-- The state with an error recorded, its number as R83 gives it: written only while ERR = 0 (R85). -/
def recorded (number : BitVec 4) (s : State) : State :=
  if s.err = false then { s with err := true, ecode := number } else s

/-- The number of an error in the table of R83. -/
def numberOf : ErrorCode → BitVec 4
  | .illegalOpcode => 1
  | .reservedBits => 2
  | .illegalOperand => 3
  | .notConfigured => 4
  | .domain => 5
  | .length => 6

/-- The results of a sequence may be trusted only if STAT.ERR = 0 at its end (R87, R102 item 4). -/
def resultsValid (s : State) : Bool := !s.err

/-- The source's three kinds of error (R91). -/
inductive EngineError where
  | invalidInput
  | capacityExceeded
  | internalError
  deriving DecidableEq, Repr

/-- At the level of `encode` any QRECC error is an InternalError, and QRECC raises no other (R91). -/
def engineError (s : State) : Option EngineError := if s.err then some .internalError else none

/-- The interleaved sequence "must equal the version's total codeword capacity. A violation is the InternalError"
(spec/42_reed_solomon.md R76); the capacity is the host's. -/
def interleaveError (capacity : Nat) (out : List Byte) : Option EngineError :=
  if out.length = capacity then none else some .internalError

/-- In how many bit positions two words differ (spec/43_bch.md R80, R81). -/
def differingBits (x y : BitVec 18) : Nat := ((List.range 18).filter (fun j => (x ^^^ y).getLsbD j)).length

/-- The data codewords of the current block once a command has been performed: RS_CFG and RS_CLR begin a new block
(spec/42_reed_solomon.md R66, R67), SRST leaves none (R50), RS_FEED adds one (R68), and no other command touches
them. -/
def fedByCommand (i : Instr) (ds : List Byte) : List Byte :=
  match i with
  | .rsCfg _ | .rsClr | .srst => []
  | .rsFeed d => ds ++ [d]
  | .nop | .clrerr | .rsRdpar _ | .rsRdgen _ | .rsRdcfg | .gfMul _ _ | .gfExp _ | .gfLog _ | .gfInv _ | .bchFmt _ _
  | .bchVer _ => ds

/-- The data codewords of the current block after a command word: a command that no error rejects counts as
`fedByCommand` says, and a rejected one and a word that is no command keep them. -/
def fedByWord (w : Word) (s : State) (ds : List Byte) : List Byte :=
  match decode w with
  | .command i => if firstError i s = none then fedByCommand i ds else ds
  | .illegalOpcode | .reservedBits => ds

/-- The data codewords of the current block after a host event: a CMD write counts as `fedByWord` says, the assertion of
reset leaves none, and every other event keeps them. -/
def fedAfter (ev : HostEvent) (s : State) (ds : List Byte) : List Byte :=
  match ev with
  | .assertReset => []
  | .releaseReset | .read _ _ => ds
  | .write offset _ w => if offset = 0x0 then fedByWord w s ds else ds

/-- "While E ≠ 0", CNT counts the bytes `ds` of the current block and PAR holds their EC codewords below index E
(spec/42_reed_solomon.md R64), GEN being the generator of E (spec/10_state.md R19). -/
def HoldsParityOf (s : State) (ds : List Byte) : Prop :=
  s.e = 0 ∨ (s.gen = genFile s.e.val ∧ s.cnt.toNat = ds.length ∧ entriesBelow s.par s.e = rsParity s.e.val ds)

/-- Where R76 puts codeword `c` of row `b`: after the codewords of every row that stand in an earlier column, and after
those of column `c` in the rows before `b` that are not exhausted. -/
def columnPosition (rows : List (List Byte)) (b c : Nat) : Nat :=
  (rows.map (fun row => min c row.length)).sum + ((rows.take b).filter (fun row => decide (c < row.length))).length

/-- The registers of R13 hold their reset values (R97). -/
def RegistersReset (s : State) : Prop :=
  s.e = 0 ∧ s.cnt = 0 ∧ s.par = RegFile.zero ∧ s.gen = RegFile.zero ∧ s.res = 0 ∧ s.err = false ∧ s.ecode = 0

/-- What every state that a run can reach satisfies. -/
structure Inv (s : State) : Prop where
  /-- CNT + E ≤ MAX_N whenever E ≠ 0 (R17). -/
  blockFits : s.e ≠ 0 → s.cnt.toNat + s.e.val ≤ 255
  /-- Nothing is counted before a configuration: RS_FEED is refused while E = 0 (R16). -/
  uncountedUnconfigured : s.e = 0 → s.cnt = 0
  /-- GEN is a function of E alone, and 0 from index E on (R19). -/
  genOfE : s.gen = genFile s.e.val
  /-- PAR[i] = 0 for E ≤ i < MAX_E (R18). -/
  parAboveE : ∀ i : Fin 30, s.e.val ≤ i.val → s.par[i] = 0
  /-- ERR = 0 exactly when ECODE = 0 (R21). -/
  errIffCode : s.err = false ↔ s.ecode = 0
  /-- ECODE values 7..15 are never produced (R21, R83). -/
  codeLegal : s.ecode.toNat ≤ 6
  /-- While hardware reset is asserted the registers hold their reset values (R98). -/
  heldInReset : s.inReset = true → RegistersReset s

end Sys2Proof.Safety
end

