-- ==== Sys2Proof/Certificates/Slice0/Obligations.lean ====
section
/-! DEFINITION. Certificates/Slice0/Obligations.lean: the statements for the provers, file by file of the spec. The
states they speak of are all states; where a claim needs a state that a run can reach, `Safety.Inv` or the part of it
that matters is a premise, and `StepKeepsInvariant` says that every step keeps it. Every computed value of the field,
the generator and the BCH words is at the constants of R7, which R8 marks as general knowledge (log entry 1). -/

open Sys2Proof Sys2Proof.Machine Sys2Proof.Safety

/-! ## Encoding (spec/30_encoding.md) -/

/-- One word of each row of the opcode map, written out from the bit diagrams of R40 with the field values of the
assembler table of R47, and three words that are no command. -/
def Obligations.DecodeSampleWords : Prop :=
  decode 0b00000000000000000000000000000000 = .command .nop ∧
  decode 0b00000001000000000000000000000000 = .command .srst ∧
  decode 0b00000010000000000000000000000000 = .command .clrerr ∧
  decode 0b00010000000000000000000000001010 = .command (.rsCfg 10) ∧
  decode 0b00010001000000000000000000000000 = .command .rsClr ∧
  decode 0b00010010000000000000000000100000 = .command (.rsFeed 0x20) ∧
  decode 0b00010011000000000000000000001001 = .command (.rsRdpar 9) ∧
  decode 0b00010100000000000000000000000110 = .command (.rsRdgen 6) ∧
  decode 0b00010101000000000000000000000000 = .command .rsRdcfg ∧
  decode 0b00100000000000000101001111001010 = .command (.gfMul 0x53 0xCA) ∧
  decode 0b00100001000000000000000011111110 = .command (.gfExp 254) ∧
  decode 0b00100010000000000000000011111111 = .command (.gfLog 0xFF) ∧
  decode 0b00100011000000000000000010000000 = .command (.gfInv 0x80) ∧
  decode 0b00110000000000000000001000000011 = .command (.bchFmt 2 3) ∧
  decode 0b00110001000000000000000000101000 = .command (.bchVer 40) ∧
  decode 0b00000000000000000000000000000001 = .reservedBits ∧
  decode 0b00110001000000000000000001000111 = .reservedBits ∧
  decode 0b11111111000000000000000011111111 = .illegalOpcode

/-- Decoding the word of any command gives the command back, with every operand at every value, and so does decoding
its four byte lanes (R31, R39). -/
def Obligations.DecodeEncodeRoundTrip : Prop :=
  ∀ i : Instr, decode (encode i) = .command i ∧
    decodeLanes [laneOf (encode i) 0, laneOf (encode i) 1, laneOf (encode i) 2, laneOf (encode i) 3] =
      some (.command i)

/-- A word that decodes to a command is the word of that command: no command has two encodings. -/
def Obligations.EncodeDecodeRoundTrip : Prop :=
  ∀ (w : Word) (i : Instr), decode w = .command i → encode i = w

/-- R42: "A word w is the command of a row exactly when (w & mask) = match", every mnemonic has a row, and an OP that
no row lists is unassigned. -/
def Obligations.WordIsRowCommandExactlyWhenItMatches : Prop :=
  (∀ (w : Word), ∀ r ∈ opTable,
    ((∃ i, decode w = .command i ∧ i.mnemonic = r.mnemonic) ↔ w &&& r.mask = r.matchBits)) ∧
  (∀ m : Mnemonic, ∃ r ∈ opTable, r.mnemonic = m) ∧
  (∀ w : Word, (∀ r ∈ opTable, r.op ≠ w.extractLsb' 24 8) ↔ decode w = .illegalOpcode)

/-- R41: every operand is its field's bits, unsigned and unscaled, and the decoder checks no value: each command with
each operand value is the decoding of some word. -/
def Obligations.OperandsAreTheFieldBits : Prop :=
  (∀ (w : Word) (i : Instr), decode w = .command i →
    match i with
    | .rsCfg a | .rsFeed a | .rsRdpar a | .rsRdgen a | .gfExp a | .gfLog a | .gfInv a => a.toNat = w.toNat % 2 ^ 8
    | .gfMul a b => a.toNat = w.toNat / 2 ^ 8 % 2 ^ 8 ∧ b.toNat = w.toNat % 2 ^ 8
    | .bchFmt ecl mask => ecl.toNat = w.toNat / 2 ^ 8 % 2 ^ 2 ∧ mask.toNat = w.toNat % 2 ^ 3
    | .bchVer ver => ver.toNat = w.toNat % 2 ^ 6
    | .nop | .srst | .clrerr | .rsClr | .rsRdcfg => True) ∧
  (∀ i : Instr, ∃ w : Word, decode w = .command i)

/-- R43 at the port: a word written to CMD is exactly one of three things. An opcode that no row lists records
ILLEGAL_OPCODE, a row's opcode with a reserved bit records RESERVED_BITS, and otherwise the step is the row's command
with the operands of the word; and no word matches two rows. -/
def Obligations.CommandWriteIsOneOfThreeCases : Prop :=
  (∀ (s : State) (w : Word) (rest : List HostEvent), s.inReset = false → s.pending = .write 0x0 32 w :: rest →
    ((∀ r ∈ opTable, r.op ≠ w.extractLsb' 24 8) → step s = .next (recorded 1 { s with pending := rest })) ∧
    (∀ r ∈ opTable, r.op = w.extractLsb' 24 8 → w &&& r.mask ≠ r.matchBits →
      step s = .next (recorded 2 { s with pending := rest })) ∧
    (∀ r ∈ opTable, w &&& r.mask = r.matchBits →
      step s = exec (instrOf r.mnemonic w) { s with pending := rest })) ∧
  (∀ w : Word, ∀ r ∈ opTable, ∀ q ∈ opTable, w &&& r.mask = r.matchBits → w &&& q.mask = q.matchBits → r = q)

/-- R44 and R45 from the opcode ranges and the formats of R40, not from the masks: what an unassigned opcode and a 1
in a reserved bit record, and that nothing else happens. -/
def Obligations.IllegalAndReservedEncodingsRecordAndDoNothingElse : Prop :=
  ∀ (s : State) (w : Word) (rest : List HostEvent), s.inReset = false → s.pending = .write 0x0 32 w :: rest →
    (let op := w.toNat / 2 ^ 24
     ((0x03 ≤ op ∧ op ≤ 0x0F) ∨ (0x16 ≤ op ∧ op ≤ 0x1F) ∨ (0x24 ≤ op ∧ op ≤ 0x2F) ∨ (0x32 ≤ op ∧ op ≤ 0xFF)) →
      step s = .next (recorded 1 { s with pending := rest })) ∧
    (let op := w.toNat / 2 ^ 24
     ((op ∈ [0x00, 0x01, 0x02, 0x11, 0x15] ∧ w.extractLsb' 0 24 ≠ 0) ∨
      (op ∈ [0x10, 0x12, 0x13, 0x14, 0x21, 0x22, 0x23] ∧ w.extractLsb' 8 16 ≠ 0) ∨
      (op = 0x20 ∧ w.extractLsb' 16 8 ≠ 0) ∨
      (op = 0x30 ∧ (w.extractLsb' 10 14 ≠ 0 ∨ w.extractLsb' 3 5 ≠ 0)) ∨
      (op = 0x31 ∧ w.extractLsb' 6 18 ≠ 0)) →
      step s = .next (recorded 2 { s with pending := rest }))

/-- R47: assembling the line that writes a command gives the command, an assembled line keeps its mnemonic and its
operand values, and exactly the ill-formed lines are refused. -/
def Obligations.AssemblerRoundTripAndRefusal : Prop :=
  (∀ i : Instr, assemble i.asm = some i) ∧
  (∀ (c : AsmCommand) (i : Instr), assemble c = some i →
    i.mnemonic = c.mnemonic ∧ i.asm.operands.map AsmOperand.value = c.operands.map AsmOperand.value) ∧
  (∀ c : AsmCommand, assemble c = none ↔ c.wf = false)

/-! ## The port (spec/20_memory.md) -/

/-- A step on a CMD write whose word decodes to a command is the execution of that command, with the write taken off
the host's accesses; a step changes nothing else around it (R27). -/
def Obligations.StepRunsTheDecodedCommand : Prop :=
  ∀ (s : State) (w : Word) (i : Instr) (rest : List HostEvent),
    s.inReset = false → s.pending = .write 0x0 32 w :: rest → decode w = .command i →
      step s = exec i { s with pending := rest }

/-- R28: writes at 0x4, 0x8 and 0xC change no state; reads at 0x0 and 0xC return 0; no read changes a register, the
reset line, or what is pending after it: it only returns a value. -/
def Obligations.ReadOnlyAndReservedOffsets : Prop :=
  (∀ (s : State) (o : BitVec 4) (v : Word) (rest : List HostEvent), s.inReset = false →
    (o = 0x4 ∨ o = 0x8 ∨ o = 0xC) → s.pending = .write o 32 v :: rest → step s = .next { s with pending := rest }) ∧
  (∀ (s : State) (o : BitVec 4) (rest : List HostEvent), s.inReset = false → (o = 0x0 ∨ o = 0xC) →
    s.pending = .read o 32 :: rest → step s = .next { s with pending := rest, readLog := s.readLog ++ [0x00000000] }) ∧
  (∀ (s t : State) (o : BitVec 4) (bits : Nat) (rest : List HostEvent), s.pending = .read o bits :: rest →
    step s = .next t → ∃ v, t = { s with pending := rest, readLog := s.readLog ++ [v] })

/-- Reads at 0x4 and 0x8: RES, and STAT with the fields of R21 (ERR in bit 0, CFG in bit 1 computed from E, ECODE in
bits 7:4, all else 0). An ECODE in 7..15 is never produced, and a read that finds one is a fault (U7). -/
def Obligations.ResultAndStatusReads : Prop :=
  (∀ (s : State) (rest : List HostEvent), s.inReset = false → s.pending = .read 0x4 32 :: rest →
    step s = .next { s with pending := rest, readLog := s.readLog ++ [s.res] }) ∧
  (∀ (s : State) (rest : List HostEvent), s.inReset = false → s.ecode.toNat ≤ 6 → s.pending = .read 0x8 32 :: rest →
    ∃ v : Word, step s = .next { s with pending := rest, readLog := s.readLog ++ [v] } ∧
      v.toNat = (if s.err then 1 else 0) + (if s.e = 0 then 0 else 2) + 16 * s.ecode.toNat) ∧
  (∀ (s : State) (rest : List HostEvent), s.inReset = false → 7 ≤ s.ecode.toNat → s.pending = .read 0x8 32 :: rest →
    step s = .fault .ecodeNeverProduced)

/-- The accesses that have no step: another width or offset (R29), any access while reset is asserted (R98), and none
at all (R95, R103). -/
def Obligations.AccessesWithoutAStep : Prop :=
  (∀ (s : State) (o : BitVec 4) (bits : Nat) (v : Word) (rest : List HostEvent), s.inReset = false →
    (bits ≠ 32 ∨ o.toNat % 4 ≠ 0) → (s.pending = .write o bits v :: rest ∨ s.pending = .read o bits :: rest) →
      step s = .refused .accessNotAdmitted) ∧
  (∀ (s : State) (o : BitVec 4) (bits : Nat) (v : Word) (rest : List HostEvent), s.inReset = true →
    (s.pending = .write o bits v :: rest ∨ s.pending = .read o bits :: rest) →
      step s = .refused .accessDuringReset) ∧
  (∀ s : State, s.pending = [] → step s = .refused .noHostAccess)

/-- R30, R36 and R100 on three accesses in a row: after any command word, accepted or rejected, a read of RES returns
what that command left, and a second read returns the same. -/
def Obligations.NextReadSeesTheCommandsResult : Prop :=
  ∀ (s : State) (w : Word) (rest : List HostEvent), s.inReset = false →
    s.pending = .write 0x0 32 w :: .read 0x4 32 :: .read 0x4 32 :: rest →
    ∃ t u : State, step s = .next t ∧ t.pending = .read 0x4 32 :: .read 0x4 32 :: rest ∧ step t = .next u ∧
      step u = .next { t with pending := rest, readLog := s.readLog ++ [t.res, t.res] }

/-- The window of 16 bytes at QRECC_BASE, wherever the platform puts it: each of its addresses selects its offset, and
no other address selects any (R26, R34). -/
def Obligations.WindowAddressesSelectOffsets : Prop :=
  (∀ o : BitVec 4, windowOffset? (Config.qreccBase + o.toNat) = some o) ∧
  (∀ addr : Nat, addr < Config.qreccBase ∨ Config.qreccBase + 16 ≤ addr → windowOffset? addr = none)

/-! ## Control and reset (spec/40_control.md, spec/70_reset_and_hazards.md) -/

/-- R49 and R46: NOP does nothing, 0x00000000 is its only word, any other word with OP 0 is RESERVED_BITS, and no
other command leaves every state as it is. -/
def Obligations.NopDoesNothingAndNothingElseDoes : Prop :=
  (∀ s : State, exec .nop s = .next s) ∧
  (∀ w : Word, decode w = .command .nop ↔ w = 0x00000000) ∧
  (∀ w : Word, w.extractLsb' 24 8 = 0 → w ≠ 0x00000000 → decode w = .reservedBits) ∧
  (∀ i : Instr, (∀ s : State, exec i s = .next s) → i = .nop)

/-- R50: SRST, word 0x01000000, sets every register to 0 and leaves the reset line and the host alone; in the reset
state it changes nothing. -/
def Obligations.SrstGivesTheResetState : Prop :=
  decode 0x01000000 = .command .srst ∧
  (∀ s : State, exec .srst s = .next { s with
    e := 0, cnt := 0, par := Vector.replicate 30 0, gen := Vector.replicate 30 0, res := 0, err := false, ecode := 0 }) ∧
  exec .srst State.reset = .next State.reset

/-- R51: CLRERR, word 0x02000000, clears ERR and ECODE and nothing else. A malformed CLRERR word is RESERVED_BITS: it
clears nothing, and records that code if ERR was 0. -/
def Obligations.ClrerrClearsTheRecordOnly : Prop :=
  decode 0x02000000 = .command .clrerr ∧
  (∀ s : State, exec .clrerr s = .next { s with err := false, ecode := 0 }) ∧
  (∀ s : State, s.err = false → s.ecode = 0 → exec .clrerr s = .next s) ∧
  (∀ (s : State) (w : Word) (rest : List HostEvent), s.inReset = false → s.pending = .write 0x0 32 w :: rest →
    w.extractLsb' 24 8 = 0x02 → w ≠ 0x02000000 →
      step s = .next (if s.err then { s with pending := rest }
        else { s with pending := rest, err := true, ecode := 2 }))

/-- R97 and the reset line of R98: asserting reset and SRST both leave every register at 0, whatever the state before;
asserting also holds the line until it is released, and releasing changes no register (the line as a field is the
model's choice, log entry 4). -/
def Obligations.HardwareResetAndSrstLeaveTheResetState : Prop :=
  (∀ (s : State) (rest : List HostEvent), s.pending = .assertReset :: rest →
    step s = .next { State.reset with inReset := true, pending := rest, readLog := s.readLog }) ∧
  (∀ s : State, exec .srst s =
    .next { State.reset with inReset := s.inReset, pending := s.pending, readLog := s.readLog }) ∧
  (∀ (s : State) (rest : List HostEvent), s.pending = .releaseReset :: rest →
    step s = .next { s with inReset := false, pending := rest }) ∧
  State.reset.e.val = 0 ∧ State.reset.cnt = 0 ∧ (∀ i : Fin 30, State.reset.par[i] = 0 ∧ State.reset.gen[i] = 0) ∧
  State.reset.res = 0x00000000 ∧ State.reset.err = false ∧ State.reset.ecode = 0 ∧ State.reset.statWord = 0x00000000

/-! ## The field GF(256) (spec/41_gf_arith.md) -/

/-- What R54 says of its shift-and-add procedure: a commutative, associative product that distributes over addition,
with identity 1 and zero 0; and R53: addition is its own inverse. -/
def Obligations.FieldMultiplicationLaws : Prop :=
  (∀ a b : Elem, gfMul a b = gfMul b a) ∧
  (∀ a b c : Elem, gfMul (gfMul a b) c = gfMul a (gfMul b c)) ∧
  (∀ a b c : Elem, gfMul a (gfAdd b c) = gfAdd (gfMul a b) (gfMul a c)) ∧
  (∀ a : Elem, gfMul 1 a = a) ∧
  (∀ a : Elem, gfMul 0 a = 0 ∧ gfMul a 0 = 0) ∧
  (∀ a b : Elem, gfAdd (gfAdd a b) b = a)

/-- R55 (the spec's own inference): the recurrence of the EXP table; α is primitive: its powers 1 to α^254 run through
the non-zero elements once each, and α^255 = 1; LOG undoes EXP and LOG[0] does not exist; and the entries R55 gives to
check against. -/
def Obligations.PowersOfAlphaRunThroughTheField : Prop :=
  gfExpTable 0 = 0x01 ∧
  (∀ i ≤ 253, gfExpTable (i + 1) =
    if (gfExpTable i).getLsbD 7 then (gfExpTable i <<< 1) ^^^ 0x1D else gfExpTable i <<< 1) ∧
  (∀ i j, i ≤ 254 → j ≤ 254 → gfExpTable i = gfExpTable j → i = j) ∧
  (∀ a : Elem, a ≠ 0 ↔ ∃ i ≤ 254, gfExpTable i = a) ∧
  gfExpTable 255 = 1 ∧ Config.alpha = 0x02 ∧ gfExpTable 1 = Config.alpha ∧
  (∀ i ≤ 254, gfLog? (gfExpTable i) = some i) ∧ gfLog? 0 = none ∧
  gfExpTable 8 = 0x1D ∧ gfExpTable 25 = 0x03 ∧ gfExpTable 254 = 0x8E ∧
  gfLog? 0x02 = some 1 ∧ gfLog? 0xFF = some 175

/-- R56 (the spec's own inference): for every a and b the table method equals the shift-and-add definition. -/
def Obligations.TableMethodEqualsShiftAndAdd : Prop :=
  (∀ a b : Elem, a = 0 ∨ b = 0 → gfMul a b = 0) ∧
  (∀ a b : Elem, a ≠ 0 → b ≠ 0 → ∃ l m : Nat, gfLog? a = some l ∧ gfLog? b = some m ∧
    gfMul a b = gfExpTable ((l + m) % 255)) ∧
  (∀ a b : Elem, gfMul a b = gfMulByTable a b)

/-- R57 (the spec's own inference): for a ≠ 0 the inverse is the unique element whose product with a is 1, and it equals
EXP[(255 − LOG[a]) mod 255]; 0 has none. -/
def Obligations.InverseIsTheUniqueOne : Prop :=
  (∀ a : Elem, a ≠ 0 → ∃ (v : Elem) (l : Nat), gfInv? a = some v ∧ gfMul a v = 1 ∧
    (∀ u : Elem, gfMul a u = 1 → u = v) ∧ gfLog? a = some l ∧ v = gfExpTable ((255 - l) % 255)) ∧
  gfInv? 0 = none ∧ (∀ u : Elem, gfMul 0 u ≠ 1)

/-- R58: GF_MUL. Every operand pair is legal; RES receives the product and nothing else changes; the corner cases and
the example of the rule. -/
def Obligations.GfMulReturnsTheProduct : Prop :=
  (∀ a b : BitVec 8, decode (0x20000000 ||| (a.setWidth 32 <<< 8) ||| b.setWidth 32) = .command (.gfMul a b)) ∧
  (∀ (a b : BitVec 8) (s : State), exec (.gfMul a b) s = .next { s with res := (gfMul a b).setWidth 32 }) ∧
  (∀ b : BitVec 8, gfMul 0 b = 0 ∧ gfMul b 0 = 0 ∧ gfMul 1 b = b) ∧
  (∀ (a b : BitVec 8) (s : State), exec (.gfMul a b) s = exec (.gfMul b a) s) ∧
  (∀ a b : BitVec 8, ((gfMul a b).setWidth 32 : Word).extractLsb' 8 24 = 0) ∧
  (∀ s : State, exec (.gfMul 0x80 0x02) s = .next { s with res := 0x0000001D })

/-- R59: GF_EXP. RES receives EXP[A mod 255] and nothing else changes; A = 0 and A = 255 give 1, the result is never
0, and the example of the rule. -/
def Obligations.GfExpReturnsThePower : Prop :=
  (∀ a : BitVec 8, decode (0x21000000 ||| a.setWidth 32) = .command (.gfExp a)) ∧
  (∀ (a : BitVec 8) (s : State), exec (.gfExp a) s = .next { s with res := (gfExpTable (a.toNat % 255)).setWidth 32 }) ∧
  (∀ s : State, exec (.gfExp 0) s = .next { s with res := 1 } ∧ exec (.gfExp 255) s = .next { s with res := 1 }) ∧
  (∀ (a : BitVec 8) (s t : State), exec (.gfExp a) s = .next t → t.res ≠ 0) ∧
  (∀ s : State, exec (.gfExp 8) s = .next { s with res := 0x0000001D })

/-- R60: GF_LOG. DOMAIN at 0, with RES unchanged; otherwise RES receives the logarithm, at most 254, whose power of α
is the operand, and nothing else changes; GF_LOG 1 gives 0, and the example of the rule. -/
def Obligations.GfLogReturnsTheLogarithm : Prop :=
  (∀ a : BitVec 8, decode (0x22000000 ||| a.setWidth 32) = .command (.gfLog a)) ∧
  (∀ s : State, exec (.gfLog 0) s = .next (recorded 5 s)) ∧
  (∀ (a : BitVec 8) (s : State), a ≠ 0 → ∃ l ≤ 254, gfLog? a = some l ∧ gfExpTable l = a ∧
    exec (.gfLog a) s = .next { s with res := BitVec.ofNat 32 l } ∧
    exec (.gfExp (BitVec.ofNat 8 l)) s = .next { s with res := a.setWidth 32 }) ∧
  (∀ s : State, exec (.gfLog 1) s = .next { s with res := 0 }) ∧
  (∀ s : State, exec (.gfLog 0xFF) s = .next { s with res := 0x000000AF })

/-- R61: GF_INV. DOMAIN at 0, with RES unchanged; otherwise RES receives the inverse and nothing else changes; the
inverse of the inverse is the operand, GF_INV 1 gives 1, and the example of the rule. -/
def Obligations.GfInvReturnsTheInverse : Prop :=
  (∀ a : BitVec 8, decode (0x23000000 ||| a.setWidth 32) = .command (.gfInv a)) ∧
  (∀ s : State, exec (.gfInv 0) s = .next (recorded 5 s)) ∧
  (∀ (a : BitVec 8) (s : State), a ≠ 0 → ∃ v : BitVec 8, gfInv? a = some v ∧ gfMul a v = 1 ∧
    exec (.gfInv a) s = .next { s with res := v.setWidth 32 } ∧
    exec (.gfInv v) s = .next { s with res := a.setWidth 32 }) ∧
  (∀ s : State, exec (.gfInv 1) s = .next { s with res := 1 }) ∧
  (∀ s : State, exec (.gfInv 0x02) s = .next { s with res := 0x0000008E })

/-! ## The Reed–Solomon encoder (spec/42_reed_solomon.md) -/

/-- R62: the generator of degree E is monic of degree E, and α^0 to α^(E−1) are its roots (at every degree, MAX_E or
beyond); and the coefficient lists R62 gives for E = 1, 2 and 7. -/
def Obligations.GeneratorHasItsRoots : Prop :=
  (∀ e : Nat, (genPoly e).length = e + 1 ∧ (genPoly e).head? = some 1 ∧
    ∀ i < e, polyEval (genPoly e) (alphaPow i) = 0) ∧
  genCoeffs 1 = [0x01] ∧ genCoeffs 2 = [0x03, 0x02] ∧ genCoeffs 7 = [0x7F, 0x7A, 0x9A, 0xA4, 0x0B, 0x44, 0x75]

/-- R64 (the spec's own inference): while E ≠ 0, PAR[0..E−1] are the EC codewords of R63 (the remainder of long
division) of the bytes fed since the block began. Here for the three commands that write PAR: RS_CFG and RS_CLR begin
with the empty block, and RS_FEED of d goes from the bytes ds to the bytes ds followed by d. That every other step and
every rejected command keeps it is `StepKeepsTheBlocksParity`. -/
def Obligations.ParityIsTheRemainderOfWhatWasFed : Prop :=
  (∀ (a : BitVec 8) (s : State), 1 ≤ a.toNat → a.toNat ≤ 30 →
    ∃ t, exec (.rsCfg a) s = .next t ∧ t.e.val = a.toNat ∧ t.cnt = 0 ∧ t.gen = genFile t.e.val ∧
      entriesBelow t.par t.e = rsParity t.e.val [] ∧ (∀ i : Fin 30, t.par[i] = 0)) ∧
  (∀ s : State, ∃ t, exec .rsClr s = .next t ∧ t.e = s.e ∧ t.cnt = 0 ∧ t.gen = s.gen ∧
      entriesBelow t.par t.e = rsParity t.e.val [] ∧ (∀ i : Fin 30, t.par[i] = 0)) ∧
  (∀ (s : State) (ds : List Byte) (d : Byte), s.e ≠ 0 → s.gen = genFile s.e.val → s.cnt.toNat = ds.length →
    ds.length + s.e.val < 255 → entriesBelow s.par s.e = rsParity s.e.val ds →
    ∃ t, exec (.rsFeed d) s = .next t ∧ t.e = s.e ∧ t.gen = s.gen ∧ t.cnt.toNat = (ds ++ [d]).length ∧
      entriesBelow t.par t.e = rsParity t.e.val (ds ++ [d]))

/-- R63 and R65: a block's codeword sequence, its data followed by its E EC codewords, vanishes at every root of the
generator. -/
def Obligations.CodewordVanishesAtTheRoots : Prop :=
  ∀ (e : Nat) (ds : List Byte), (rsParity e ds).length = e ∧
    ∀ i < e, polyEval (ds ++ rsParity e ds) (alphaPow i) = 0

/-- R65: parity is linear, leading zeros do not change it, a single byte gives its multiples of the generator's
coefficients, and with E = 1 it is the exclusive-or of the data. -/
def Obligations.ParityIsLinear : Prop :=
  (∀ (e : Nat) (ds es : List Byte), ds.length = es.length →
    rsParity e (List.zipWith gfAdd ds es) = List.zipWith gfAdd (rsParity e ds) (rsParity e es)) ∧
  (∀ (e : Nat) (ds : List Byte), rsParity e (0x00 :: ds) = rsParity e ds) ∧
  (∀ (e : Nat) (d : Byte), rsParity e [d] = (genCoeffs e).map (fun g => gfMul d g)) ∧
  (∀ ds : List Byte, rsParity 1 ds = [ds.foldl gfAdd 0x00])

/-- R66: RS_CFG. ILLEGAL_OPERAND unless 1 ≤ A ≤ 30, with the earlier configuration kept; otherwise E is A, GEN is
gen_coeffs(A) followed by zeros, PAR and CNT are 0, also when E was A before; RES and STAT's record are not written,
CFG reads 1; and the example of the rule. -/
def Obligations.RsCfgStartsABlock : Prop :=
  (∀ a : BitVec 8, decode (0x10000000 ||| a.setWidth 32) = .command (.rsCfg a)) ∧
  (∀ (a : BitVec 8) (s : State), a.toNat = 0 ∨ 30 < a.toNat → exec (.rsCfg a) s = .next (recorded 3 s)) ∧
  (∀ (a : BitVec 8) (s : State), 1 ≤ a.toNat → a.toNat ≤ 30 →
    ∃ t, exec (.rsCfg a) s = .next t ∧ t = { s with e := t.e, cnt := 0, par := Vector.replicate 30 0, gen := t.gen } ∧
      t.e.val = a.toNat ∧ t.statWord.getLsbD 1 = true ∧
      ∀ i : Fin 30, t.gen[i] = if i.val < a.toNat then (genCoeffs a.toNat).getD i.val 0 else 0) ∧
  genCoeffs 10 = [0xD8, 0xC2, 0x9F, 0x6F, 0xC7, 0x5E, 0x5F, 0x71, 0x9D, 0xC1]

/-- R67: RS_CLR, word 0x11000000, clears PAR and CNT and nothing else, with E = 0 as with any other E. -/
def Obligations.RsClrStartsABlockWithTheSameE : Prop :=
  decode 0x11000000 = .command .rsClr ∧
  (∀ s : State, exec .rsClr s = .next { s with par := Vector.replicate 30 0, cnt := 0 }) ∧
  (∀ s : State, Inv s → s.e = 0 → exec .rsClr s = .next s)

/-- R68: RS_FEED. NOT_CONFIGURED when E = 0; LENGTH when CNT + E ≥ 255; otherwise, with fb = A ^ PAR[0] and every
right-hand side read before the command, PAR below E shifts and takes the feedback in, PAR from E on is kept, CNT
counts up without wrapping, and nothing else changes; the corner cases E = 1, zero data and fb = 0, and the example. -/
def Obligations.RsFeedShiftsOneCodewordIn : Prop :=
  (∀ a : BitVec 8, decode (0x12000000 ||| a.setWidth 32) = .command (.rsFeed a)) ∧
  (∀ (a : BitVec 8) (s : State), s.e = 0 → exec (.rsFeed a) s = .next (recorded 4 s)) ∧
  (∀ (a : BitVec 8) (s : State), s.e ≠ 0 → 255 ≤ s.cnt.toNat + s.e.val → exec (.rsFeed a) s = .next (recorded 6 s)) ∧
  (∀ (a : BitVec 8) (s : State), s.e ≠ 0 → s.cnt.toNat + s.e.val < 255 →
    ∃ t, exec (.rsFeed a) s = .next t ∧ t = { s with par := t.par, cnt := t.cnt } ∧
      t.cnt.toNat = s.cnt.toNat + 1 ∧
      (∀ i j : Fin 30, j.val = i.val + 1 → j.val < s.e.val →
        t.par[i] = s.par[j] ^^^ gfMul (a ^^^ s.par[0]) s.gen[i]) ∧
      (∀ i : Fin 30, i.val + 1 = s.e.val → t.par[i] = gfMul (a ^^^ s.par[0]) s.gen[i]) ∧
      (∀ i : Fin 30, s.e.val ≤ i.val → t.par[i] = s.par[i]) ∧
      (s.gen = genFile s.e.val → s.e.val = 1 → t.par[0] = a ^^^ s.par[0]) ∧
      (a = 0 → (∀ i : Fin 30, s.par[i] = 0) → t.par = s.par) ∧
      (a = s.par[0] → (∀ i j : Fin 30, j.val = i.val + 1 → j.val < s.e.val → t.par[i] = s.par[j]) ∧
        (∀ i : Fin 30, i.val + 1 = s.e.val → t.par[i] = 0))) ∧
  (∀ s : State, s.e.val = 2 → s.gen = genFile 2 → s.par = Vector.replicate 30 0 → s.cnt = 0 →
    ∃ t, exec (.rsFeed 0x12) s = .next t ∧ t.par[0] = 0x36 ∧ t.par[1] = 0x24 ∧ t.cnt = 1)

/-- R69: RS_RDPAR. NOT_CONFIGURED when E = 0, otherwise ILLEGAL_OPERAND when A ≥ E, RES unchanged in both; otherwise
RES receives PAR[A] and nothing else changes, so that a second read returns the same value; and a read in the middle
of a block returns the parity of the prefix fed so far; and the parity of the rule's example block. -/
def Obligations.RsRdparReadsOneEcCodeword : Prop :=
  (∀ a : BitVec 8, decode (0x13000000 ||| a.setWidth 32) = .command (.rsRdpar a)) ∧
  (∀ (a : BitVec 8) (s : State), s.e = 0 → exec (.rsRdpar a) s = .next (recorded 4 s)) ∧
  (∀ (a : BitVec 8) (s : State), s.e ≠ 0 → s.e.val ≤ a.toNat → exec (.rsRdpar a) s = .next (recorded 3 s)) ∧
  (∀ (a : BitVec 8) (s : State) (i : Fin 30), a.toNat = i.val → i.val < s.e.val →
    exec (.rsRdpar a) s = .next { s with res := s.par[i].setWidth 32 } ∧
    exec (.rsRdpar a) { s with res := s.par[i].setWidth 32 } = .next { s with res := s.par[i].setWidth 32 }) ∧
  (∀ (a : BitVec 8) (s : State) (ds : List Byte), a.toNat < s.e.val → entriesBelow s.par s.e = rsParity s.e.val ds →
    exec (.rsRdpar a) s = .next { s with res := ((rsParity s.e.val ds).getD a.toNat 0).setWidth 32 }) ∧
  rsParity 10 [0x20, 0x5B, 0x0B, 0x78, 0xD1, 0x72, 0xDC, 0x4D, 0x43, 0x40, 0xEC, 0x11, 0xEC, 0x11, 0xEC, 0x11] =
    [0xC4, 0x23, 0x27, 0x77, 0xEB, 0xD7, 0xE7, 0xE2, 0x5D, 0x17]

/-- R70: RS_RDGEN. NOT_CONFIGURED when E = 0, otherwise ILLEGAL_OPERAND when A ≥ E; otherwise RES receives GEN[A] and
nothing else changes; and the example of the rule. The clause on index E−1, that it returns α^(E(E−1)/2), is the spec's
own inference: R70 is marked "[derived: from rule R62]". -/
def Obligations.RsRdgenReadsOneCoefficient : Prop :=
  (∀ a : BitVec 8, decode (0x14000000 ||| a.setWidth 32) = .command (.rsRdgen a)) ∧
  (∀ (a : BitVec 8) (s : State), s.e = 0 → exec (.rsRdgen a) s = .next (recorded 4 s)) ∧
  (∀ (a : BitVec 8) (s : State), s.e ≠ 0 → s.e.val ≤ a.toNat → exec (.rsRdgen a) s = .next (recorded 3 s)) ∧
  (∀ (a : BitVec 8) (s : State) (i : Fin 30), a.toNat = i.val → i.val < s.e.val →
    exec (.rsRdgen a) s = .next { s with res := s.gen[i].setWidth 32 }) ∧
  (∀ (a : BitVec 8) (s : State), s.gen = genFile s.e.val → a.toNat + 1 = s.e.val →
    exec (.rsRdgen a) s =
      .next { s with res := (gfExpTable ((s.e.val * (s.e.val - 1) / 2) % 255)).setWidth 32 }) ∧
  (∀ s : State, s.e.val = 7 → s.gen = genFile 7 → exec (.rsRdgen 0) s = .next { s with res := 0x0000007F } ∧
    exec (.rsRdgen 6) s = .next { s with res := 0x00000075 })

/-- R71: RS_RDCFG, word 0x15000000, returns E in RES[7:0], CNT in RES[15:8] and 0 above, and changes nothing else,
with E = 0 as with any other E; and the example of the rule. -/
def Obligations.RsRdcfgReadsEAndCnt : Prop :=
  decode 0x15000000 = .command .rsRdcfg ∧
  (∀ s : State, ∃ v : Word, exec .rsRdcfg s = .next { s with res := v } ∧
    v.toNat = s.e.val + 256 * s.cnt.toNat) ∧
  (∀ s : State, s.e.val = 10 → s.cnt = 16 → exec .rsRdcfg s = .next { s with res := 0x0000100A }) ∧
  exec .rsRdcfg State.reset = .next State.reset

/-! ## The BCH encoder (spec/43_bch.md) -/

/-- R77: bch_rem is the remainder by a generator of degree m: it stays below 2^m, it is linear, it leaves a polynomial
below 2^m as it is, and it is 0 on every multiple of the generator by a power of x that fits the width, so, with
linearity, on every multiple. -/
def Obligations.BchRemainderIsBoundedAndLinear : Prop :=
  (∀ (n m : Nat) (v g : BitVec 18), n + m ≤ 18 → v.toNat < 2 ^ (n + m) → 2 ^ m ≤ g.toNat → g.toNat < 2 ^ (m + 1) →
    (bchRem (n + m) m v g).toNat < 2 ^ m) ∧
  (∀ (width m : Nat) (u v g : BitVec 18),
    bchRem width m (u ^^^ v) g = bchRem width m u g ^^^ bchRem width m v g) ∧
  (∀ (n m : Nat) (v g : BitVec 18), v.toNat < 2 ^ m → bchRem (n + m) m v g = v) ∧
  (∀ (n m j : Nat) (g : BitVec 18), n + m ≤ 18 → 2 ^ m ≤ g.toNat → g.toNat < 2 ^ (m + 1) → j < n →
    bchRem (n + m) m (g <<< j) g = 0)

/-- R78 (the spec's own inference): the bit-serial shift register, fed the n data bits of f most significant first,
gives bch_rem(f << m, g) for every generator g of degree m ≥ 1. -/
def Obligations.ShiftRegisterEqualsDivision : Prop :=
  ∀ (n m : Nat) (f g : BitVec 18), 1 ≤ m → n + m ≤ 18 → f.toNat < 2 ^ n → 2 ^ m ≤ g.toNat → g.toNat < 2 ^ (m + 1) →
    bchSerial m g f n 0 = bchRem (n + m) m (f <<< m) g

/-- R79 and R80: BCH_FMT. Every operand pair is legal; RES receives the format word and nothing else changes; before
the mask its bits are the level code of R79, the mask id and the check bits; the word is never 0, only (M, 0) has no
data bit; and the example of the rule. The clause that any two words differ in at least 7 bits is the spec's own
inference: R80 marks it "(derived by enumeration; 95_test_vectors.md section 5)". -/
def Obligations.BchFmtReturnsTheFormatWord : Prop :=
  (∀ (ecl : BitVec 2) (mask : BitVec 3),
    decode (0x30000000 ||| (ecl.setWidth 32 <<< 8) ||| mask.setWidth 32) = .command (.bchFmt ecl mask)) ∧
  (∀ (ecl : BitVec 2) (mask : BitVec 3) (s : State), ∃ raw : BitVec 18,
    exec (.bchFmt ecl mask) s = .next { s with res := (raw ^^^ 0x5412).setWidth 32 } ∧
    raw.extractLsb' 13 2 = (if ecl = 0 then 0b01 else if ecl = 1 then 0b00 else if ecl = 2 then 0b11 else 0b10) ∧
    raw.extractLsb' 10 3 = mask ∧ raw.extractLsb' 15 3 = 0 ∧
    raw.extractLsb' 0 10 = (bchRem 15 10 ((raw >>> 10) <<< 10) 0x537).extractLsb' 0 10) ∧
  (∀ s : State, exec (.bchFmt 1 0) s = .next { s with res := 0x5412 }) ∧
  (∀ (ecl : BitVec 2) (mask : BitVec 3), formatData ecl mask = 0 ↔ ecl = 1 ∧ mask = 0) ∧
  (∀ (ecl : BitVec 2) (mask : BitVec 3), formatWord ecl mask ≠ 0) ∧
  (∀ (ecl ecl' : BitVec 2) (mask mask' : BitVec 3), (ecl, mask) ≠ (ecl', mask') →
    7 ≤ differingBits (formatWord ecl mask) (formatWord ecl' mask')) ∧
  (∀ s : State, exec (.bchFmt 2 3) s = .next { s with res := 0x00003A06 })

/-- R81: BCH_VER. ILLEGAL_OPERAND outside 7..40, with RES unchanged; otherwise RES receives the version word and
nothing else changes: the version above its check bits, with no mask; and the example of the rule. The clause that any
two words differ in at least 8 bits is the spec's own inference: R81 marks it "(derived by enumeration)". -/
def Obligations.BchVerReturnsTheVersionWord : Prop :=
  (∀ ver : BitVec 6, decode (0x31000000 ||| ver.setWidth 32) = .command (.bchVer ver)) ∧
  (∀ (ver : BitVec 6) (s : State), ver.toNat < 7 ∨ 40 < ver.toNat → exec (.bchVer ver) s = .next (recorded 3 s)) ∧
  (∀ (ver : BitVec 6) (s : State), 7 ≤ ver.toNat → ver.toNat ≤ 40 → ∃ v : BitVec 18,
    exec (.bchVer ver) s = .next { s with res := v.setWidth 32 } ∧ v = versionWord ver ∧
    v.extractLsb' 12 6 = ver ∧
    v.extractLsb' 0 12 = (bchRem 18 12 (ver.setWidth 18 <<< 12) 0x1F25).extractLsb' 0 12) ∧
  (∀ ver ver' : BitVec 6, 7 ≤ ver.toNat → ver.toNat ≤ 40 → 7 ≤ ver'.toNat → ver'.toNat ≤ 40 → ver ≠ ver' →
    8 ≤ differingBits (versionWord ver) (versionWord ver')) ∧
  (∀ s : State, exec (.bchVer 7) s = .next { s with res := 0x00007C94 })

/-- R82 (the spec's own inference): the round trip. Unmasked, every format word is a multiple of its generator and
carries the level code and the mask id; so does every version word, without the mask. -/
def Obligations.FormatAndVersionWordsRoundTrip : Prop :=
  (∀ (ecl : BitVec 2) (mask : BitVec 3) (s t : State), exec (.bchFmt ecl mask) s = .next t →
    bchRem 15 10 ((t.res.extractLsb' 0 15).setWidth 18 ^^^ 0x5412) 0x537 = 0 ∧
    (t.res ^^^ 0x5412).extractLsb' 10 5 = Config.eclCode (levelOf ecl) ++ mask) ∧
  (∀ (ver : BitVec 6) (s t : State), 7 ≤ ver.toNat → ver.toNat ≤ 40 → exec (.bchVer ver) s = .next t →
    bchRem 18 12 (t.res.extractLsb' 0 18) 0x1F25 = 0 ∧ t.res.extractLsb' 12 6 = ver)

/-! ## Errors and whole-machine rules (spec/60_exceptions.md, spec/10_state.md) -/

/-- R84 and R85: a command word is checked for its opcode, then for its reserved bits, then for the causes of R83 that
depend on the state and the operands, in the order of R84; the first that applies is recorded by its number, only while
ERR = 0, and the command has no other effect. -/
def Obligations.FirstApplicableErrorIsRecorded : Prop :=
  (∀ (w : Word) (s : State), decode w = .illegalOpcode → runCommand w s = .next (recorded 1 s)) ∧
  (∀ (w : Word) (s : State), decode w = .reservedBits → runCommand w s = .next (recorded 2 s)) ∧
  (∀ (w : Word) (i : Instr) (s : State) (c : ErrorCode), decode w = .command i → firstError i s = some c →
    runCommand w s = .next (recorded (numberOf c) s)) ∧
  (∀ (i : Instr) (s : State) (c : ErrorCode), firstError i s = some c → exec i s = .next (recorded (numberOf c) s))

/-- R21 and R86: a command to which no cause applies leaves ERR and ECODE as they are, except SRST and CLRERR, which
clear them. -/
def Obligations.OnlyErrorsAndClearsWriteTheRecord : Prop :=
  ∀ (i : Instr) (s : State), firstError i s = none → ∃ t, exec i s = .next t ∧
    (if i = .srst ∨ i = .clrerr then t.err = false ∧ t.ecode = 0 else t.err = s.err ∧ t.ecode = s.ecode)

/-- R24 and R87: ERR and ECODE change no command's result. From two states that differ in nothing else, a command
leads to two states that differ in nothing else. -/
def Obligations.ErrorRecordInfluencesNoResult : Prop :=
  ∀ (i : Instr) (s : State) (err : Bool) (code : BitVec 4), ∃ (t : State) (err' : Bool) (code' : BitVec 4),
    exec i s = .next t ∧ exec i { s with err := err, ecode := code } = .next { t with err := err', ecode := code' }

/-- The frame of every command, from the column "written by" of R13 and from R20: which commands can change E, CNT,
PAR, GEN and RES, and that none changes the reset line or the host's side. -/
def Obligations.EachRegisterHasItsWriters : Prop :=
  ∀ (i : Instr) (s : State), ∃ t, exec i s = .next t ∧
    (i.mnemonic ∉ [.rsCfg, .srst] → t.e = s.e) ∧
    (i.mnemonic ∉ [.rsCfg, .rsClr, .rsFeed, .srst] → t.cnt = s.cnt) ∧
    (i.mnemonic ∉ [.rsCfg, .rsClr, .rsFeed, .srst] → t.par = s.par) ∧
    (i.mnemonic ∉ [.rsCfg, .srst] → t.gen = s.gen) ∧
    (i.mnemonic ∉ [.rsRdpar, .rsRdgen, .rsRdcfg, .gfMul, .gfExp, .gfLog, .gfInv, .bchFmt, .bchVer, .srst] →
      t.res = s.res) ∧
    (firstError i s ≠ none → t.res = s.res) ∧
    t.inReset = s.inReset ∧ t.pending = s.pending ∧ t.readLog = s.readLog

/-- The reset state meets the invariant. -/
def Obligations.ResetMeetsInvariant : Prop := Inv State.reset

/-- R16 to R19, R21 and R98 over every step: CNT + E ≤ 255 while E ≠ 0 and nothing counted while E = 0, GEN the
generator of E, PAR and GEN 0 from index E on, ERR = 0 exactly when ECODE = 0, ECODE at most 6, and the registers at
their reset values while reset is asserted. -/
def Obligations.StepKeepsInvariant : Prop :=
  ∀ s t : State, Inv s → step s = .next t → Inv t

/-- The only events that change the registers of R13 are CMD writes and the reset line: any other step leaves them,
and no step from a state that meets the invariant is a fault (R28, R83; the registers of R98). That a read of STAT with
an ECODE of 7..15 is a fault (U7, log entry 10) and that the release of reset is an event of its own (log entry 4) are
the model's. -/
def Obligations.OnlyCommandsAndResetChangeRegisters : Prop :=
  (∀ (s t : State) (ev : HostEvent) (rest : List HostEvent), s.pending = ev :: rest → step s = .next t →
    (∀ w, ev ≠ .write 0x0 32 w) → ev ≠ .assertReset →
    t.e = s.e ∧ t.cnt = s.cnt ∧ t.par = s.par ∧ t.gen = s.gen ∧ t.res = s.res ∧ t.err = s.err ∧ t.ecode = s.ecode) ∧
  (∀ (s : State) (f : Fault), Inv s → step s ≠ .fault f)

/-! ## The host protocol (spec/30_encoding.md R48, spec/42_reed_solomon.md R73 to R76) -/

/-- R75: from any state that meets the invariant, the host's accesses for one block (RS_CFG E, or RS_CLR if E is
already right; the feeds; the reads) return the EC codewords of R63 of that block's data and E, whatever was encoded
before, and record no error. That the script issues RS_CLR where E is already right, and not RS_CFG, which R75 allows
too, is the model's choice (log entry 15). -/
def Obligations.BlockScriptReadsTheBlocksParity : Prop :=
  ∀ (s : State) (e : Nat) (ds : List Byte) (rest : List HostEvent), Inv s → s.inReset = false →
    1 ≤ e → e ≤ 30 → ds.length + e ≤ 255 → s.pending = blockScript s.e.val e ds ++ rest →
    ∃ t : State, Sys2Proof.core.run (blockScript s.e.val e ds).length s = .next t ∧
      t.readLog = s.readLog ++ (rsParity e ds).map (fun p => p.setWidth 32) ∧
      t.pending = rest ∧ t.e.val = e ∧ t.cnt.toNat = ds.length ∧ t.err = s.err ∧ t.ecode = s.ecode

/-- R74: the split succeeds exactly when the data codewords are used up exactly, and then its pieces are the data in
order, of the blocks' lengths. -/
def Obligations.SplitUsesTheDataUpExactly : Prop :=
  (∀ (bs : List Block) (ds : List Byte) (parts : List (List Byte)),
    splitData bs ds = some parts ↔ parts.flatten = ds ∧ parts.map List.length = bs.map Block.k) ∧
  (∀ (bs : List Block) (ds : List Byte), (splitData bs ds).isSome = true ↔ (bs.map Block.k).sum = ds.length)

/-- R76: the interleaved sequence holds every data codeword and then every EC codeword, each as often as it stands in
the blocks, so its length is Σ (k_b + E_b); a single block is left as it is; and the order is column by column:
codeword c of block b stands after every codeword of an earlier column and after the codewords of column c in the
blocks before b, an exhausted block counting for nothing, first over the data and then, after all of it, over the EC
codewords "the same way". -/
def Obligations.InterleaveKeepsEveryCodeword : Prop :=
  (∀ data ec : List (List Byte), ∃ front back : List Byte, interleave data ec = front ++ back ∧
    front.Perm data.flatten ∧ back.Perm ec.flatten ∧
    (interleave data ec).length = (data.map List.length).sum + (ec.map List.length).sum) ∧
  (∀ d e : List Byte, interleave [d] [e] = d ++ e) ∧
  (∀ (data ec : List (List Byte)) (b c : Nat) (row : List Byte) (x : Byte), data[b]? = some row → row[c]? = some x →
    (interleave data ec)[columnPosition data b c]? = some x) ∧
  (∀ (data ec : List (List Byte)) (b c : Nat) (row : List Byte) (x : Byte), ec[b]? = some row → row[c]? = some x →
    (interleave data ec)[(data.map List.length).sum + columnPosition ec b c]? = some x)

/-- R48: GF_DIV a, b with b ≠ 0 returns the quotient: the element whose product with b is a. -/
def Obligations.GfDivReturnsTheQuotient : Prop :=
  ∀ (s : State) (a b : Byte) (rest : List HostEvent), b ≠ 0 → s.inReset = false → s.pending = gfDivFirst b ++ rest →
    ∃ (u t : State) (v : Word) (q : Byte), step s = .next u ∧ step u = .next t ∧ t.readLog = s.readLog ++ [v] ∧
      t.pending = rest ∧ t.inReset = false ∧
      step { t with pending := gfDivSecond a v ++ rest } = .next { t with res := q.setWidth 32 } ∧ gfMul q b = a

/-! ## The parity over every step (spec/42_reed_solomon.md R64) -/

/-- R64 (the spec's own inference) over every step: where PAR holds the parity of some bytes, or E is 0, every step that
answers a next state leaves it so; and where it holds the parity of the bytes `ds`, it holds after the step the parity
of the bytes that R64 then speaks of, `fedAfter`: the empty block after RS_CFG and RS_CLR, `ds` and the codeword after
an accepted RS_FEED, and `ds` again after any other command, a rejected command, a read or an ignored write. -/
def Obligations.StepKeepsTheBlocksParity : Prop :=
  (∀ s t : State, (∃ ds : List Byte, HoldsParityOf s ds) → step s = .next t → ∃ ds : List Byte, HoldsParityOf t ds) ∧
  (∀ (s t : State) (ev : HostEvent) (rest : List HostEvent) (ds : List Byte), s.pending = ev :: rest →
    HoldsParityOf s ds → step s = .next t → HoldsParityOf t (fedAfter ev s ds)) ∧
  HoldsParityOf State.reset []

/-! ## The pseudo-commands under their conditions (spec/30_encoding.md R48) -/

/-- R48 (the spec's own inference): each pseudo-command, under its condition, runs to its end and records no error.
RS_BLOCK and RS_REFEED leave the parity of the codewords fed, the second with the E that is configured (where GEN is
its generator); RS_READALL with e = current E reads PAR[0..E−1] in order and changes no other register than RES, which
holds the last of them; GF_SQR, which has no condition, returns the square. GF_DIV is `GfDivReturnsTheQuotient`. -/
def Obligations.PseudoCommandsUnderTheirConditions : Prop :=
  (∀ (s : State) (e : Byte) (ds : List Byte) (rest : List HostEvent), rsBlockOk e ds = true → s.inReset = false →
    s.pending = rsBlock e ds ++ rest →
    ∃ t : State, Sys2Proof.core.run (rsBlock e ds).length s = .next t ∧ t.e.val = e.toNat ∧ t.gen = genFile e.toNat ∧
      t.cnt.toNat = ds.length ∧ entriesBelow t.par t.e = rsParity e.toNat ds ∧ t.res = s.res ∧ t.err = s.err ∧
      t.ecode = s.ecode ∧ t.readLog = s.readLog ∧ t.pending = rest ∧ t.inReset = false) ∧
  (∀ (s : State) (ds : List Byte) (rest : List HostEvent), rsRefeedOk s ds = true → s.gen = genFile s.e.val →
    s.inReset = false → s.pending = rsRefeed ds ++ rest →
    ∃ t : State, Sys2Proof.core.run (rsRefeed ds).length s = .next t ∧ t.e = s.e ∧ t.gen = s.gen ∧
      t.cnt.toNat = ds.length ∧ entriesBelow t.par t.e = rsParity s.e.val ds ∧ t.res = s.res ∧ t.err = s.err ∧
      t.ecode = s.ecode ∧ t.readLog = s.readLog ∧ t.pending = rest ∧ t.inReset = false) ∧
  (∀ (s : State) (e : Byte) (rest : List HostEvent), rsReadallOk s e = true → s.inReset = false →
    s.pending = rsReadall e ++ rest →
    ∃ t : State, Sys2Proof.core.run (rsReadall e).length s = .next t ∧
      t.readLog = s.readLog ++ (entriesBelow s.par s.e).map (fun p => p.setWidth 32) ∧
      t.res = (((entriesBelow s.par s.e).map (fun p => p.setWidth 32)).getLast?).getD s.res ∧ t.e = s.e ∧
      t.cnt = s.cnt ∧ t.par = s.par ∧ t.gen = s.gen ∧ t.err = s.err ∧ t.ecode = s.ecode ∧ t.pending = rest ∧
      t.inReset = false) ∧
  (∀ (s : State) (a : Byte) (rest : List HostEvent), s.inReset = false → s.pending = gfSqr a ++ rest →
    step s = .next { s with pending := rest, res := (gfMul a a).setWidth 32 })
end

