-- ==== Sys2Proof/Laws/Codes.lean ====
section
/-! SUPPORT. Laws/Codes.lean: the small lemmas of the field, polynomial and remainder definitions, so that no later
proof unfolds them. -/

namespace Sys2Proof.Machine

/-! ## The field -/

@[simp] theorem gfMulLoop_nil (b : Elem) (t : BitVec 9) (r : Elem) : gfMulLoop b [] t r = r := rfl
theorem gfMulLoop_cons (b : Elem) (j : Nat) (js : List Nat) (t : BitVec 9) (r : Elem) :
    gfMulLoop b (j :: js) t r =
      gfMulLoop b js (shiftReduce t) (if b.getLsbD j then gfAdd r (t.setWidth 8) else r) := rfl

theorem gfAdd_comm (a b : Elem) : gfAdd a b = gfAdd b a := BitVec.xor_comm a b
theorem gfAdd_assoc (a b c : Elem) : gfAdd (gfAdd a b) c = gfAdd a (gfAdd b c) := BitVec.xor_assoc a b c
@[simp] theorem gfAdd_zero (a : Elem) : gfAdd a 0#8 = a := BitVec.xor_zero
@[simp] theorem zero_gfAdd (a : Elem) : gfAdd 0#8 a = a := BitVec.zero_xor
@[simp] theorem gfAdd_self (a : Elem) : gfAdd a a = 0#8 := BitVec.xor_self

/-- The exclusive-or of two conditional reductions is one, on the exclusive-or of their conditions. -/
theorem xor_reductions (a b p : BitVec 9) (x y : Bool) :
    (a ^^^ b) ^^^ (if x ^^ y then p else 0#9) = (a ^^^ if x then p else 0#9) ^^^ (b ^^^ if y then p else 0#9) := by
  have swap : ∀ c : BitVec 9, c ^^^ (b ^^^ p) = c ^^^ p ^^^ b := fun c => by ac_rfl
  cases x <;> cases y
  · simp
  · simp [BitVec.xor_assoc]
  · simp only [Bool.xor_false, if_true, Bool.false_eq_true, if_false, BitVec.xor_zero]; ac_rfl
  · simp only [Bool.xor_self, if_true, Bool.false_eq_true, if_false, BitVec.xor_zero]
    rw [swap, BitVec.xor_assoc a p p, BitVec.xor_self, BitVec.xor_zero]

/-- One doubling step with its reduction as a conditional exclusive-or. -/
theorem shiftReduce_eq (t : BitVec 9) :
    shiftReduce t = (t <<< 1) ^^^ (if (t <<< 1).getLsbD 8 then Config.primPoly else 0#9) := by
  simp only [shiftReduce]
  split <;> simp

/-- Multiplying by x and reducing is linear: the reduction of a sum is the sum of the reductions. -/
theorem shiftReduce_xor (t u : BitVec 9) : shiftReduce (t ^^^ u) = shiftReduce t ^^^ shiftReduce u := by
  rw [shiftReduce_eq, shiftReduce_eq t, shiftReduce_eq u, BitVec.shiftLeft_xor_distrib, BitVec.getLsbD_xor,
    xor_reductions]

/-- The accumulator of the product loop only adds to its result. -/
theorem gfMulLoop_acc (b : Elem) (js : List Nat) (t : BitVec 9) (r : Elem) :
    gfMulLoop b js t r = gfAdd r (gfMulLoop b js t 0) := by
  induction js generalizing t r with
  | nil => simp
  | cons j js ih =>
    rw [gfMulLoop_cons, gfMulLoop_cons, ih]
    conv_rhs => rw [ih]
    cases b.getLsbD j <;> simp [gfAdd_assoc]

@[simp] theorem gfExpTable_zero : gfExpTable 0 = 0x01 := rfl
theorem gfExpTable_succ (i : Nat) : gfExpTable (i + 1) = timesAlpha (gfExpTable i) := rfl
theorem alphaPow_of_lt {i : Nat} (h : i < 255) : alphaPow i = gfExpTable i := by rw [alphaPow, Nat.mod_eq_of_lt h]
theorem alphaPow_mod (i : Nat) : alphaPow (i % 255) = alphaPow i := by simp [alphaPow]

/-- A logarithm that exists is below 255 and undoes the table (R22). -/
theorem gfLog?_some {a : Elem} {l : Nat} (h : gfLog? a = some l) : l < 255 ∧ gfExpTable l = a := by
  unfold gfLog? at h
  exact ⟨List.mem_range.1 (List.mem_of_find?_eq_some h), by simpa using List.find?_some h⟩

/-! ## Polynomials over GF(256) -/

@[simp] theorem genPoly_zero : genPoly 0 = [0x01] := rfl
theorem genPoly_succ (n : Nat) : genPoly (n + 1) = timesRoot (genPoly n) (alphaPow (Config.genB + n)) := rfl
@[simp] theorem timesRoot_length (c : List Elem) (r : Elem) : (timesRoot c r).length = c.length + 1 := by
  simp [timesRoot]

@[simp] theorem addLeading_nil (p : List Elem) : addLeading p [] = p := by cases p <;> rfl
@[simp] theorem addLeading_cons (p q : Elem) (ps qs : List Elem) :
    addLeading (p :: ps) (q :: qs) = gfAdd p q :: addLeading ps qs := rfl
@[simp] theorem addLeading_length (p q : List Elem) : (addLeading p q).length = p.length := by
  induction p generalizing q with
  | nil => cases q <;> rfl
  | cons p ps ih => cases q <;> simp [ih]

@[simp] theorem divideSteps_zero (g p : List Elem) : divideSteps g 0 p = p := rfl
@[simp] theorem divideSteps_cons (g : List Elem) (n : Nat) (c : Elem) (p : List Elem) :
    divideSteps g (n + 1) (c :: p) = divideSteps g n (addLeading p (g.map (fun gi => gfMul c gi))) := rfl

/-- Each division step takes one coefficient off. -/
theorem divideSteps_length (g : List Elem) (n : Nat) (p : List Elem) : (divideSteps g n p).length = p.length - n := by
  induction n generalizing p with
  | zero => simp
  | succ n ih =>
    cases p with
    | nil => simp [divideSteps]
    | cons c p => rw [divideSteps_cons, ih, addLeading_length, List.length_cons]; omega

/-- The parity of the empty block is zero (R64). -/
theorem rsParity_nil (e : Nat) : rsParity e [] = List.replicate e 0 := rfl

@[simp] theorem polyEval_nil (x : Elem) : polyEval [] x = 0 := rfl
theorem polyEval_append_singleton (p : List Elem) (c x : Elem) :
    polyEval (p ++ [c]) x = gfAdd (gfMul (polyEval p x) x) c := by
  simp [polyEval]

/-! ## Remainders over GF(2) -/

@[simp] theorem bchReduce_zero (g : BitVec 18) (m : Nat) (v : BitVec 18) : bchReduce g m 0 v = v := rfl
theorem bchReduce_succ (g : BitVec 18) (m n : Nat) (v : BitVec 18) :
    bchReduce g m (n + 1) v = bchReduce g m n (if v.getLsbD (m + n) then v ^^^ (g <<< n) else v) := rfl
theorem bchRem_add (n m : Nat) (v g : BitVec 18) : bchRem (n + m) m v g = bchReduce g m n v := by
  simp [bchRem]
@[simp] theorem bchSerial_zero (m : Nat) (g f s : BitVec 18) : bchSerial m g f 0 s = s := rfl
theorem bchSerial_succ (m n : Nat) (g f s : BitVec 18) :
    bchSerial m g f (n + 1) s = bchSerial m g f n (serialStep m g s (f.getLsbD n)) := rfl

end Sys2Proof.Machine
end

