-- ==== Sys2Proof/Laws/Decoding.lean ====
section
/-! SUPPORT. Laws/Decoding.lean: what the opcode map and the decoder say, once each. -/

namespace Sys2Proof

/-- The row found for an opcode is a row of the map with that opcode. -/
theorem rowOf?_some {op : BitVec 8} {r : OpRow} (h : rowOf? op = some r) : r ∈ opTable ∧ r.op = op := by
  unfold rowOf? at h
  exact ⟨List.mem_of_find?_eq_some h, by simpa using List.find?_some h⟩

/-- No row is found exactly for the opcodes the map does not list. -/
theorem rowOf?_none {op : BitVec 8} : rowOf? op = none ↔ ∀ r ∈ opTable, r.op ≠ op := by
  simp [rowOf?, List.find?_eq_none]

/-- An opcode stands in one row only. -/
theorem opTable_op_unique : ∀ r ∈ opTable, ∀ q ∈ opTable, r.op = q.op → r = q := by decide

/-- The row of an opcode is the one the decoder uses. -/
theorem rowOf?_of_mem {r : OpRow} (h : r ∈ opTable) : rowOf? r.op = some r := by
  revert r; decide

/-- Every row's match value carries its opcode, and its mask keeps all of it. -/
theorem opTable_match_op : ∀ r ∈ opTable, opcode r.matchBits = r.op ∧ opcode r.mask = 0xFF := by decide

/-- Taking the opcode of a masked word masks the opcode. -/
theorem opcode_and (w m : Word) : opcode (w &&& m) = opcode w &&& opcode m := by
  ext i hi; simp [opcode]

/-- A word that matches a row has the row's opcode. -/
theorem opcode_of_match {w : Word} {r : OpRow} (hr : r ∈ opTable) (h : w &&& r.mask = r.matchBits) :
    opcode w = r.op := by
  have h1 := opTable_match_op r hr
  have h2 := opcode_and w r.mask
  rw [h, h1.1, h1.2] at h2
  rw [h2]
  exact (BitVec.and_allOnes (x := opcode w)).symm

/-- What the decoder answers on a word whose opcode stands in a row (R43). -/
theorem decode_of_row {w : Word} {r : OpRow} (hr : r ∈ opTable) (ho : opcode w = r.op) :
    decode w = if w &&& r.mask = r.matchBits then .command (instrOf r.mnemonic w) else .reservedBits := by
  unfold decode
  rw [ho, rowOf?_of_mem hr]

/-- A word that matches a row is that row's command (R42). -/
theorem decode_of_match {w : Word} {r : OpRow} (hr : r ∈ opTable) (h : w &&& r.mask = r.matchBits) :
    decode w = .command (instrOf r.mnemonic w) := by
  rw [decode_of_row hr (opcode_of_match hr h), if_pos h]

/-- The command read for a row is a command of that row. -/
@[simp] theorem instrOf_mnemonic (m : Mnemonic) (w : Word) : (instrOf m w).mnemonic = m := by
  cases m <;> rfl

end Sys2Proof
end

