-- ==== Sys2Proof/Laws/HostProtocol.lean ====
section
/-! SUPPORT. Laws/HostProtocol.lean: the conditions and lengths of the pseudo-commands (spec/30_encoding.md R48) and
the columns of the interleave (spec/42_reed_solomon.md R76), so that no later proof unfolds them. -/

namespace Sys2Proof.Machine

/-! ## The pseudo-commands (spec/30_encoding.md R48) -/

theorem rsBlockOk_iff {e : Byte} {ds : List Byte} :
    rsBlockOk e ds = true ↔ 1 ≤ e.toNat ∧ e.toNat ≤ 30 ∧ ds.length ≤ 255 - e.toNat := by simp [rsBlockOk]
theorem rsRefeedOk_iff {s : State} {ds : List Byte} :
    rsRefeedOk s ds = true ↔ s.e ≠ 0 ∧ ds.length ≤ 255 - s.e.val := by simp [rsRefeedOk]
theorem rsReadallOk_iff {s : State} {e : Byte} : rsReadallOk s e = true ↔ e.toNat = s.e.val := by simp [rsReadallOk]
theorem gfDivOk_iff {b : Byte} : gfDivOk b = true ↔ b ≠ 0 := by simp [gfDivOk]

@[simp] theorem feeds_length (ds : List Byte) : (feeds ds).length = ds.length := by simp [feeds]
@[simp] theorem rsBlock_length (e : Byte) (ds : List Byte) : (rsBlock e ds).length = ds.length + 1 := by simp [rsBlock]
@[simp] theorem rsRefeed_length (ds : List Byte) : (rsRefeed ds).length = ds.length + 1 := by simp [rsRefeed]
@[simp] theorem rsReadall_length (e : Byte) : (rsReadall e).length = 2 * e.toNat := by
  simp [rsReadall, List.length_flatMap]; omega

/-! ## The interleave -/

/-- A column has one codeword of every row that is not exhausted (R76). -/
theorem column_length (rows : List (List Byte)) (c : Nat) :
    (column rows c).length = (rows.filter (fun row => decide (c < row.length))).length := by
  induction rows with
  | nil => rfl
  | cons r rs ih =>
    by_cases h : c < r.length
    · simp [column, h] at *; exact ih
    · simp [column, h] at *; exact ih

/-- The column of more rows: the earlier rows come first (R76). -/
theorem column_append (xs ys : List (List Byte)) (c : Nat) : column (xs ++ ys) c = column xs c ++ column ys c := by
  simp [column]

/-- Where codeword `c` of row `b` stands in its column (R76). -/
theorem column_getElem {rows : List (List Byte)} {b c : Nat} {row : List Byte} {x : Byte} (hb : rows[b]? = some row)
    (hc : row[c]? = some x) :
    (column rows c)[((rows.take b).filter (fun row => decide (c < row.length))).length]? = some x := by
  have hs : rows = rows.take b ++ row :: rows.drop (b + 1) := by
    obtain ⟨h, rfl⟩ := List.getElem?_eq_some_iff.1 hb
    simp
  rw [← column_length]
  conv_lhs => lhs; rw [hs, column_append]
  simp [column, hc]

/-- The length of the first `n` columns. -/
theorem columns_length (rows : List (List Byte)) (n : Nat) :
    ((List.range n).flatMap (column rows)).length = (rows.map (fun row => min n row.length)).sum := by
  induction n with
  | zero => simp
  | succ n ih =>
    rw [List.range_succ, List.flatMap_append, List.length_append, ih]
    simp only [List.flatMap_singleton, column_length]
    clear ih
    induction rows with
    | nil => rfl
    | cons r rs ih2 =>
      simp only [List.map_cons, List.sum_cons, List.filter_cons]
      by_cases h : n < r.length
      · simp only [h, decide_true, if_true, List.length_cons]; omega
      · simp only [h, decide_false, Bool.false_eq_true, if_false]; omega

/-- No row is longer than the longest. -/
theorem longest_ge {rows : List (List Byte)} {row} (h : row ∈ rows) : row.length ≤ longest rows := by
  induction rows with
  | nil => cases h
  | cons r rs ih => 
    rcases List.mem_cons.1 h with rfl | h
    · simp [longest]
    · have := ih h; simp [longest] at *; omega

/-- Column by column, no codeword is lost and none is added (R76). -/
theorem byColumns_length (rows : List (List Byte)) : (byColumns rows).length = (rows.map List.length).sum := by
  rw [byColumns, columns_length]
  congr 1
  exact List.map_congr_left (fun r hr => min_eq_right (longest_ge hr))

end Sys2Proof.Machine
end

