-- ==== Sys2Proof/Laws/State.lean ====
section
/-! SUPPORT. Laws/State.lean: one lemma per field per named update of the state, so that no later proof unfolds an
update. -/

namespace Sys2Proof.Machine

@[simp] theorem setRes_e (s : State) (v : Word) : (s.setRes v).e = s.e := rfl
@[simp] theorem setRes_cnt (s : State) (v : Word) : (s.setRes v).cnt = s.cnt := rfl
@[simp] theorem setRes_par (s : State) (v : Word) : (s.setRes v).par = s.par := rfl
@[simp] theorem setRes_gen (s : State) (v : Word) : (s.setRes v).gen = s.gen := rfl
@[simp] theorem setRes_res (s : State) (v : Word) : (s.setRes v).res = v := rfl
@[simp] theorem setRes_err (s : State) (v : Word) : (s.setRes v).err = s.err := rfl
@[simp] theorem setRes_ecode (s : State) (v : Word) : (s.setRes v).ecode = s.ecode := rfl
@[simp] theorem setRes_inReset (s : State) (v : Word) : (s.setRes v).inReset = s.inReset := rfl
@[simp] theorem setRes_pending (s : State) (v : Word) : (s.setRes v).pending = s.pending := rfl
@[simp] theorem setRes_readLog (s : State) (v : Word) : (s.setRes v).readLog = s.readLog := rfl

@[simp] theorem clearErr_e (s : State) : (clearErr s).e = s.e := rfl
@[simp] theorem clearErr_cnt (s : State) : (clearErr s).cnt = s.cnt := rfl
@[simp] theorem clearErr_par (s : State) : (clearErr s).par = s.par := rfl
@[simp] theorem clearErr_gen (s : State) : (clearErr s).gen = s.gen := rfl
@[simp] theorem clearErr_res (s : State) : (clearErr s).res = s.res := rfl
@[simp] theorem clearErr_err (s : State) : (clearErr s).err = false := rfl
@[simp] theorem clearErr_ecode (s : State) : (clearErr s).ecode = 0 := rfl
@[simp] theorem clearErr_inReset (s : State) : (clearErr s).inReset = s.inReset := rfl
@[simp] theorem clearErr_pending (s : State) : (clearErr s).pending = s.pending := rfl
@[simp] theorem clearErr_readLog (s : State) : (clearErr s).readLog = s.readLog := rfl

@[simp] theorem clearBlock_e (s : State) : (clearBlock s).e = s.e := rfl
@[simp] theorem clearBlock_cnt (s : State) : (clearBlock s).cnt = 0 := rfl
@[simp] theorem clearBlock_par (s : State) : (clearBlock s).par = RegFile.zero := rfl
@[simp] theorem clearBlock_gen (s : State) : (clearBlock s).gen = s.gen := rfl
@[simp] theorem clearBlock_res (s : State) : (clearBlock s).res = s.res := rfl
@[simp] theorem clearBlock_err (s : State) : (clearBlock s).err = s.err := rfl
@[simp] theorem clearBlock_ecode (s : State) : (clearBlock s).ecode = s.ecode := rfl
@[simp] theorem clearBlock_inReset (s : State) : (clearBlock s).inReset = s.inReset := rfl
@[simp] theorem clearBlock_pending (s : State) : (clearBlock s).pending = s.pending := rfl
@[simp] theorem clearBlock_readLog (s : State) : (clearBlock s).readLog = s.readLog := rfl

@[simp] theorem resetRegs_e (s : State) : (resetRegs s).e = 0 := rfl
@[simp] theorem resetRegs_cnt (s : State) : (resetRegs s).cnt = 0 := rfl
@[simp] theorem resetRegs_par (s : State) : (resetRegs s).par = RegFile.zero := rfl
@[simp] theorem resetRegs_gen (s : State) : (resetRegs s).gen = RegFile.zero := rfl
@[simp] theorem resetRegs_res (s : State) : (resetRegs s).res = 0 := rfl
@[simp] theorem resetRegs_err (s : State) : (resetRegs s).err = false := rfl
@[simp] theorem resetRegs_ecode (s : State) : (resetRegs s).ecode = 0 := rfl
@[simp] theorem resetRegs_inReset (s : State) : (resetRegs s).inReset = s.inReset := rfl
@[simp] theorem resetRegs_pending (s : State) : (resetRegs s).pending = s.pending := rfl
@[simp] theorem resetRegs_readLog (s : State) : (resetRegs s).readLog = s.readLog := rfl

@[simp] theorem receive_e (s : State) (v : Word) : (s.receive v).e = s.e := rfl
@[simp] theorem receive_cnt (s : State) (v : Word) : (s.receive v).cnt = s.cnt := rfl
@[simp] theorem receive_par (s : State) (v : Word) : (s.receive v).par = s.par := rfl
@[simp] theorem receive_gen (s : State) (v : Word) : (s.receive v).gen = s.gen := rfl
@[simp] theorem receive_res (s : State) (v : Word) : (s.receive v).res = s.res := rfl
@[simp] theorem receive_err (s : State) (v : Word) : (s.receive v).err = s.err := rfl
@[simp] theorem receive_ecode (s : State) (v : Word) : (s.receive v).ecode = s.ecode := rfl
@[simp] theorem receive_inReset (s : State) (v : Word) : (s.receive v).inReset = s.inReset := rfl
@[simp] theorem receive_pending (s : State) (v : Word) : (s.receive v).pending = s.pending := rfl
@[simp] theorem receive_readLog (s : State) (v : Word) : (s.receive v).readLog = s.readLog ++ [v] := rfl

@[simp] theorem assertReset_e (s : State) : (assertReset s).e = 0 := rfl
@[simp] theorem assertReset_cnt (s : State) : (assertReset s).cnt = 0 := rfl
@[simp] theorem assertReset_par (s : State) : (assertReset s).par = RegFile.zero := rfl
@[simp] theorem assertReset_gen (s : State) : (assertReset s).gen = RegFile.zero := rfl
@[simp] theorem assertReset_res (s : State) : (assertReset s).res = 0 := rfl
@[simp] theorem assertReset_err (s : State) : (assertReset s).err = false := rfl
@[simp] theorem assertReset_ecode (s : State) : (assertReset s).ecode = 0 := rfl
@[simp] theorem assertReset_inReset (s : State) : (assertReset s).inReset = true := rfl
@[simp] theorem assertReset_pending (s : State) : (assertReset s).pending = s.pending := rfl
@[simp] theorem assertReset_readLog (s : State) : (assertReset s).readLog = s.readLog := rfl

@[simp] theorem releaseReset_e (s : State) : (releaseReset s).e = s.e := rfl
@[simp] theorem releaseReset_cnt (s : State) : (releaseReset s).cnt = s.cnt := rfl
@[simp] theorem releaseReset_par (s : State) : (releaseReset s).par = s.par := rfl
@[simp] theorem releaseReset_gen (s : State) : (releaseReset s).gen = s.gen := rfl
@[simp] theorem releaseReset_res (s : State) : (releaseReset s).res = s.res := rfl
@[simp] theorem releaseReset_err (s : State) : (releaseReset s).err = s.err := rfl
@[simp] theorem releaseReset_ecode (s : State) : (releaseReset s).ecode = s.ecode := rfl
@[simp] theorem releaseReset_inReset (s : State) : (releaseReset s).inReset = false := rfl
@[simp] theorem releaseReset_pending (s : State) : (releaseReset s).pending = s.pending := rfl
@[simp] theorem releaseReset_readLog (s : State) : (releaseReset s).readLog = s.readLog := rfl

@[simp] theorem raiseErr_e (c : ErrorCode) (s : State) : (raiseErr c s).e = s.e := by
  unfold raiseErr; split <;> rfl
@[simp] theorem raiseErr_cnt (c : ErrorCode) (s : State) : (raiseErr c s).cnt = s.cnt := by
  unfold raiseErr; split <;> rfl
@[simp] theorem raiseErr_par (c : ErrorCode) (s : State) : (raiseErr c s).par = s.par := by
  unfold raiseErr; split <;> rfl
@[simp] theorem raiseErr_gen (c : ErrorCode) (s : State) : (raiseErr c s).gen = s.gen := by
  unfold raiseErr; split <;> rfl
@[simp] theorem raiseErr_res (c : ErrorCode) (s : State) : (raiseErr c s).res = s.res := by
  unfold raiseErr; split <;> rfl
@[simp] theorem raiseErr_inReset (c : ErrorCode) (s : State) : (raiseErr c s).inReset = s.inReset := by
  unfold raiseErr; split <;> rfl
@[simp] theorem raiseErr_pending (c : ErrorCode) (s : State) : (raiseErr c s).pending = s.pending := by
  unfold raiseErr; split <;> rfl
@[simp] theorem raiseErr_readLog (c : ErrorCode) (s : State) : (raiseErr c s).readLog = s.readLog := by
  unfold raiseErr; split <;> rfl

/-- After any error ERR is 1 (R85). -/
@[simp] theorem raiseErr_err (c : ErrorCode) (s : State) : (raiseErr c s).err = true := by
  unfold raiseErr; split <;> simp_all

/-- The code recorded is that of the first error (R86). -/
@[simp] theorem raiseErr_ecode (c : ErrorCode) (s : State) :
    (raiseErr c s).ecode = if s.err then s.ecode else c.code := by
  unfold raiseErr; split <;> rfl

theorem raiseErr_of_err {c : ErrorCode} {s : State} (h : s.err = true) : raiseErr c s = s := by
  simp [raiseErr, h]

theorem raiseErr_of_not_err {c : ErrorCode} {s : State} (h : s.err = false) :
    raiseErr c s = { s with err := true, ecode := c.code } := by
  simp [raiseErr, h]

@[simp] theorem withFetchWord_pending (s : State) (nbits w : Nat) :
    (s.withFetchWord nbits w).pending = .write 0x0 32 (BitVec.ofNat 32 (w % 2 ^ nbits)) :: s.pending := rfl
@[simp] theorem withFetchWord_inReset (s : State) (nbits w : Nat) : (s.withFetchWord nbits w).inReset = false := rfl

@[simp] theorem reset_e : State.reset.e = 0 := rfl
@[simp] theorem reset_cnt : State.reset.cnt = 0 := rfl
@[simp] theorem reset_par : State.reset.par = RegFile.zero := rfl
@[simp] theorem reset_gen : State.reset.gen = RegFile.zero := rfl
@[simp] theorem reset_res : State.reset.res = 0 := rfl
@[simp] theorem reset_err : State.reset.err = false := rfl
@[simp] theorem reset_ecode : State.reset.ecode = 0 := rfl
@[simp] theorem reset_inReset : State.reset.inReset = false := rfl
@[simp] theorem reset_pending : State.reset.pending = [] := rfl
@[simp] theorem reset_readLog : State.reset.readLog = [] := rfl

/-- Every entry of a cleared register file is 0. -/
@[simp] theorem zero_getElem (i : Nat) (h : i < 30) : RegFile.zero[i] = 0 := by simp [RegFile.zero]

/-- CFG is 1 exactly when E is not 0 (R21). -/
@[simp] theorem cfg_iff (s : State) : s.cfg = true ↔ s.e ≠ 0 := by simp [State.cfg]

theorem ecodeLegal_iff (s : State) : s.ecodeLegal = true ↔ s.ecode.toNat ≤ 6 := by simp [State.ecodeLegal]

end Sys2Proof.Machine
end

