-- ==== Sys2Proof/Laws/Ops.lean ====
section
/-! SUPPORT. Laws/Ops.lean: for each shared operation, one lemma that says everything it can do. -/

namespace Sys2Proof.Machine

/-- What the shared indexed read does (R69, R70): an error record, or the entry in RES. -/
theorem readEntry_cases (f : RegFile) (a : BitVec 8) (s : State) :
    (s.e = 0 ∧ readEntry f a s = .next (raiseErr .notConfigured s)) ∨
    (s.e ≠ 0 ∧ s.e.val ≤ a.toNat ∧ readEntry f a s = .next (raiseErr .illegalOperand s)) ∨
    (s.e ≠ 0 ∧ ∃ h : a.toNat < 30, a.toNat < s.e.val ∧ readEntry f a s = .next (s.setRes (zext32 f[a.toNat]))) := by
  unfold readEntry
  by_cases he : s.e = 0
  · exact .inl ⟨he, by rw [if_pos he]; rfl⟩
  · rw [if_neg he]
    by_cases ha : indexOf a < s.e.val
    · rw [dif_pos ha]
      exact .inr (.inr ⟨he, by have := s.e.isLt; unfold indexOf at ha; omega, ha, rfl⟩)
    · rw [dif_neg ha]
      exact .inr (.inl ⟨he, by unfold indexOf at ha; omega, rfl⟩)

/-- What RS_CFG does (R66). -/
theorem execRsCfg_cases (a : BitVec 8) (s : State) :
    ((a.toNat = 0 ∨ 30 < a.toNat) ∧ execRsCfg a s = .next (raiseErr .illegalOperand s)) ∨
    (1 ≤ a.toNat ∧ a.toNat ≤ 30 ∧ execRsCfg a s =
      .next (clearBlock { s with e := Fin.ofNat 31 a.toNat, gen := genFile a.toNat })) := by
  unfold execRsCfg indexOf Config.maxE
  by_cases h : a.toNat = 0 ∨ a.toNat > 30
  · exact .inl ⟨h, by rw [if_pos h]; rfl⟩
  · exact .inr ⟨by omega, by omega, by rw [if_neg h]⟩

/-- RS_CFG with the E already configured does what RS_CLR does, where GEN is the generator of E (R66, R67): either may
begin a block (log entry 15). -/
theorem execRsCfg_same_eq_execRsClr {a : BitVec 8} {s : State} (ha : a.toNat = s.e.val) (h0 : s.e ≠ 0)
    (hg : s.gen = genFile s.e.val) : execRsCfg a s = execRsClr s := by
  have hpos : s.e.val ≠ 0 := fun h => h0 (Fin.ext h)
  have hlt := s.e.isLt
  rcases execRsCfg_cases a s with ⟨h, _⟩ | ⟨_, _, h⟩
  · omega
  · rw [h, ha, ← hg, show Fin.ofNat 31 s.e.val = s.e from Fin.ext (Nat.mod_eq_of_lt hlt)]
    rfl

/-- What RS_FEED does (R68). -/
theorem execRsFeed_cases (a : BitVec 8) (s : State) :
    (s.e = 0 ∧ execRsFeed a s = .next (raiseErr .notConfigured s)) ∨
    (s.e ≠ 0 ∧ 255 ≤ s.cnt.toNat + s.e.val ∧ execRsFeed a s = .next (raiseErr .length s)) ∨
    (s.e ≠ 0 ∧ s.cnt.toNat + s.e.val < 255 ∧
      execRsFeed a s = .next { s with par := feedPar s.e s.par s.gen a, cnt := s.cnt + 1 }) := by
  unfold execRsFeed Config.maxN
  by_cases he : s.e = 0
  · exact .inl ⟨he, by rw [if_pos he]; rfl⟩
  · rw [if_neg he]
    by_cases hl : s.cnt.toNat + s.e.val ≥ 255
    · exact .inr (.inl ⟨he, hl, by rw [if_pos hl]; rfl⟩)
    · exact .inr (.inr ⟨he, by omega, by rw [if_neg hl]⟩)

/-- What GF_LOG does (R60). -/
theorem execGfLog_cases (a : BitVec 8) (s : State) :
    (gfLog? a = none ∧ execGfLog a s = .next (raiseErr .domain s)) ∨
    (∃ l, gfLog? a = some l ∧ execGfLog a s = .next (s.setRes (zext32 (BitVec.ofNat 8 l)))) := by
  unfold execGfLog
  cases h : gfLog? a with
  | none => exact .inl ⟨rfl, rfl⟩
  | some l => exact .inr ⟨l, rfl, rfl⟩

/-- What GF_INV does (R61). -/
theorem execGfInv_cases (a : BitVec 8) (s : State) :
    (gfInv? a = none ∧ execGfInv a s = .next (raiseErr .domain s)) ∨
    (∃ v, gfInv? a = some v ∧ execGfInv a s = .next (s.setRes (zext32 v))) := by
  unfold execGfInv
  cases h : gfInv? a with
  | none => exact .inl ⟨rfl, rfl⟩
  | some v => exact .inr ⟨v, rfl, rfl⟩

/-- What BCH_VER does (R81). -/
theorem execBchVer_cases (v : BitVec 6) (s : State) :
    ((v.toNat < 7 ∨ 40 < v.toNat) ∧ execBchVer v s = .next (raiseErr .illegalOperand s)) ∨
    (7 ≤ v.toNat ∧ v.toNat ≤ 40 ∧ execBchVer v s = .next (s.setRes ((versionWord v).setWidth 32))) := by
  unfold execBchVer Config.verMin Config.verMax
  by_cases h : v.toNat < 7 ∨ v.toNat > 40
  · exact .inl ⟨h, by rw [if_pos h]; rfl⟩
  · exact .inr ⟨by omega, by omega, by rw [if_neg h]⟩

/-- Everything a command can do: an error record and nothing else, or its own effect. Every invariant and frame is
read off this one case analysis. -/
theorem exec_cases (i : Instr) (s : State) :
    (∃ c, exec i s = .next (raiseErr c s)) ∨
    (exec i s = .next s ∧ i = .nop) ∨
    (exec i s = .next (resetRegs s) ∧ i = .srst) ∨
    (exec i s = .next (clearErr s) ∧ i = .clrerr) ∨
    (exec i s = .next (clearBlock s) ∧ i = .rsClr) ∨
    (∃ a : BitVec 8, i = .rsCfg a ∧ 1 ≤ a.toNat ∧ a.toNat ≤ 30 ∧
      exec i s = .next (clearBlock { s with e := Fin.ofNat 31 a.toNat, gen := genFile a.toNat })) ∨
    (∃ a : BitVec 8, i = .rsFeed a ∧ s.e ≠ 0 ∧ s.cnt.toNat + s.e.val < 255 ∧
      exec i s = .next { s with par := feedPar s.e s.par s.gen a, cnt := s.cnt + 1 }) ∨
    (∃ v : Word, exec i s = .next (s.setRes v) ∧
      i.mnemonic ∈ [.rsRdpar, .rsRdgen, .rsRdcfg, .gfMul, .gfExp, .gfLog, .gfInv, .bchFmt, .bchVer]) := by
  have hread : ∀ (f : RegFile) (a : BitVec 8),
      (∃ c, readEntry f a s = .next (raiseErr c s)) ∨ (∃ v, readEntry f a s = .next (s.setRes v)) := by
    intro f a
    rcases readEntry_cases f a s with ⟨_, h⟩ | ⟨_, _, h⟩ | ⟨_, hb, _, h⟩
    · exact .inl ⟨_, h⟩
    · exact .inl ⟨_, h⟩
    · exact .inr ⟨_, h⟩
  cases i with
  | nop => exact .inr (.inl ⟨rfl, rfl⟩)
  | srst => exact .inr (.inr (.inl ⟨rfl, rfl⟩))
  | clrerr => exact .inr (.inr (.inr (.inl ⟨rfl, rfl⟩)))
  | rsClr => exact .inr (.inr (.inr (.inr (.inl ⟨rfl, rfl⟩))))
  | rsCfg a =>
    rcases execRsCfg_cases a s with ⟨_, h⟩ | ⟨h1, h2, h⟩
    · exact .inl ⟨_, h⟩
    · exact .inr (.inr (.inr (.inr (.inr (.inl ⟨a, rfl, h1, h2, h⟩)))))
  | rsFeed a =>
    rcases execRsFeed_cases a s with ⟨_, h⟩ | ⟨_, _, h⟩ | ⟨h1, h2, h⟩
    · exact .inl ⟨_, h⟩
    · exact .inl ⟨_, h⟩
    · exact .inr (.inr (.inr (.inr (.inr (.inr (.inl ⟨a, rfl, h1, h2, h⟩))))))
  | rsRdpar a =>
    rcases hread s.par a with ⟨c, h⟩ | ⟨v, h⟩
    · exact .inl ⟨c, h⟩
    · exact .inr (.inr (.inr (.inr (.inr (.inr (.inr ⟨v, h, by simp [Instr.mnemonic]⟩))))))
  | rsRdgen a =>
    rcases hread s.gen a with ⟨c, h⟩ | ⟨v, h⟩
    · exact .inl ⟨c, h⟩
    · exact .inr (.inr (.inr (.inr (.inr (.inr (.inr ⟨v, h, by simp [Instr.mnemonic]⟩))))))
  | gfLog a =>
    rcases execGfLog_cases a s with ⟨_, h⟩ | ⟨_, _, h⟩
    · exact .inl ⟨_, h⟩
    · exact .inr (.inr (.inr (.inr (.inr (.inr (.inr ⟨_, h, by simp [Instr.mnemonic]⟩))))))
  | gfInv a =>
    rcases execGfInv_cases a s with ⟨_, h⟩ | ⟨_, _, h⟩
    · exact .inl ⟨_, h⟩
    · exact .inr (.inr (.inr (.inr (.inr (.inr (.inr ⟨_, h, by simp [Instr.mnemonic]⟩))))))
  | bchVer v =>
    rcases execBchVer_cases v s with ⟨_, h⟩ | ⟨_, _, h⟩
    · exact .inl ⟨_, h⟩
    · exact .inr (.inr (.inr (.inr (.inr (.inr (.inr ⟨_, h, by simp [Instr.mnemonic]⟩))))))
  | rsRdcfg => exact .inr (.inr (.inr (.inr (.inr (.inr (.inr ⟨_, rfl, by simp [Instr.mnemonic]⟩))))))
  | gfMul a b => exact .inr (.inr (.inr (.inr (.inr (.inr (.inr ⟨_, rfl, by simp [Instr.mnemonic]⟩))))))
  | gfExp a => exact .inr (.inr (.inr (.inr (.inr (.inr (.inr ⟨_, rfl, by simp [Instr.mnemonic]⟩))))))
  | bchFmt e m => exact .inr (.inr (.inr (.inr (.inr (.inr (.inr ⟨_, rfl, by simp [Instr.mnemonic]⟩))))))

/-- What a command word does: the command it decodes to, or an error record (R43). -/
theorem runCommand_cases (w : Word) (s : State) :
    (∃ i, decode w = .command i ∧ runCommand w s = exec i s) ∨
    (decode w = .illegalOpcode ∧ runCommand w s = .next (raiseErr .illegalOpcode s)) ∨
    (decode w = .reservedBits ∧ runCommand w s = .next (raiseErr .reservedBits s)) := by
  unfold runCommand
  cases decode w with
  | command i => exact .inl ⟨i, rfl, rfl⟩
  | illegalOpcode => exact .inr (.inl ⟨rfl, rfl⟩)
  | reservedBits => exact .inr (.inr ⟨rfl, rfl⟩)

/-- What a step can do when it answers a next state: run a command word, ignore a write, return a read, or follow the
reset line. -/
theorem step_next_cases {s t : State} (h : step s = .next t) :
    ∃ ev rest, s.pending = ev :: rest ∧
      ((∃ w, ev = .write 0x0 32 w ∧ s.inReset = false ∧ runCommand w { s with pending := rest } = .next t) ∨
       (∃ o v, ev = .write o 32 v ∧ o ≠ 0x0 ∧ s.inReset = false ∧ t = { s with pending := rest }) ∨
       (∃ o, ev = .read o 32 ∧ s.inReset = false ∧
         t = ({ s with pending := rest } : State).receive (portValue o { s with pending := rest })) ∨
       (ev = .assertReset ∧ t = assertReset { s with pending := rest }) ∨
       (ev = .releaseReset ∧ t = releaseReset { s with pending := rest })) := by
  unfold step at h
  cases hp : s.pending with
  | nil => simp [hp] at h
  | cons ev rest =>
    refine ⟨ev, rest, rfl, ?_⟩
    simp only [hp] at h
    cases ev with
    | assertReset => simp only [serve, Host.Outcome.next.injEq] at h; exact .inr (.inr (.inr (.inl ⟨rfl, h.symm⟩)))
    | releaseReset => simp only [serve, Host.Outcome.next.injEq] at h; exact .inr (.inr (.inr (.inr ⟨rfl, h.symm⟩)))
    | write o b v =>
      simp only [serve] at h
      cases hr : s.inReset with
      | true => simp [hr] at h
      | false =>
        simp only [hr, Bool.false_eq_true, if_false] at h
        split at h
        · rename_i hadm
          unfold portWrite at h
          split at h
          · rename_i ho
            simp only [admitted, Bool.and_eq_true, beq_iff_eq] at hadm
            exact .inl ⟨v, by rw [ho, hadm.1], rfl, h⟩
          · rename_i ho
            simp only [Host.Outcome.next.injEq] at h
            simp only [admitted, Bool.and_eq_true, beq_iff_eq] at hadm
            exact .inr (.inl ⟨o, v, by rw [hadm.1], ho, rfl, h.symm⟩)
        · cases h
    | read o b =>
      simp only [serve] at h
      cases hr : s.inReset with
      | true => simp [hr] at h
      | false =>
        simp only [hr, Bool.false_eq_true, if_false] at h
        split at h
        · rename_i hadm
          unfold portRead at h
          split at h
          · cases h
          · simp only [Host.Outcome.next.injEq] at h
            simp only [admitted, Bool.and_eq_true, beq_iff_eq] at hadm
            exact .inr (.inr (.inl ⟨o, by rw [hadm.1], rfl, h.symm⟩))
        · cases h

end Sys2Proof.Machine
end

