-- ==== Sys2Proof/Laws/PerInstr.lean ====
section
/-! SUPPORT. Laws/PerInstr.lean: the statements made of every command as a term, one lemma per constructor: its word
lies in its row of the opcode map (R42, R47), and the assembler line that writes it is well formed (R47). -/

namespace Sys2Proof.Laws

/-- The word of a command is a word of its row: `(w & mask) = match` (R42). -/
def EncodeInRow.Statement (i : Instr) : Prop :=
  ∃ r ∈ opTable, r.mnemonic = i.mnemonic ∧ encode i &&& r.mask = r.matchBits

/-- The line that writes a command is one the assembler accepts (R47). -/
def AsmWellFormed.Statement (i : Instr) : Prop := i.wf = true

namespace EncodeInRow

theorem nop : Statement .nop := by unfold Statement; decide
theorem srst : Statement .srst := by unfold Statement; decide
theorem clrerr : Statement .clrerr := by unfold Statement; decide
theorem rsClr : Statement .rsClr := by unfold Statement; decide
theorem rsRdcfg : Statement .rsRdcfg := by unfold Statement; decide

/-- Masking a format B word off its operand leaves the opcode. -/
theorem formatB_masked (a : BitVec 8) (op : Word) (hop : op &&& 0xFFFFFF00 = op) :
    (op ||| a.setWidth 32) &&& 0xFFFFFF00 = op := by
  have ha : a.setWidth 32 &&& (0xFFFFFF00 : Word) = 0 := by revert a; decide
  rw [show ∀ x y z : Word, (x ||| y) &&& z = (x &&& z) ||| (y &&& z) from fun x y z => by ext; simp [Bool.and_or_distrib_right], ha, hop]
  simp

theorem rsCfg (a : BitVec 8) : Statement (.rsCfg a) :=
  ⟨⟨0x10, .rsCfg, 0x10000000, 0xFFFFFF00⟩, by decide, rfl, formatB_masked a _ (by decide)⟩
theorem rsFeed (a : BitVec 8) : Statement (.rsFeed a) :=
  ⟨⟨0x12, .rsFeed, 0x12000000, 0xFFFFFF00⟩, by decide, rfl, formatB_masked a _ (by decide)⟩
theorem rsRdpar (a : BitVec 8) : Statement (.rsRdpar a) :=
  ⟨⟨0x13, .rsRdpar, 0x13000000, 0xFFFFFF00⟩, by decide, rfl, formatB_masked a _ (by decide)⟩
theorem rsRdgen (a : BitVec 8) : Statement (.rsRdgen a) :=
  ⟨⟨0x14, .rsRdgen, 0x14000000, 0xFFFFFF00⟩, by decide, rfl, formatB_masked a _ (by decide)⟩
theorem gfExp (a : BitVec 8) : Statement (.gfExp a) :=
  ⟨⟨0x21, .gfExp, 0x21000000, 0xFFFFFF00⟩, by decide, rfl, formatB_masked a _ (by decide)⟩
theorem gfLog (a : BitVec 8) : Statement (.gfLog a) :=
  ⟨⟨0x22, .gfLog, 0x22000000, 0xFFFFFF00⟩, by decide, rfl, formatB_masked a _ (by decide)⟩
theorem gfInv (a : BitVec 8) : Statement (.gfInv a) :=
  ⟨⟨0x23, .gfInv, 0x23000000, 0xFFFFFF00⟩, by decide, rfl, formatB_masked a _ (by decide)⟩

theorem gfMul (a b : BitVec 8) : Statement (.gfMul a b) := by
  refine ⟨⟨0x20, .gfMul, 0x20000000, 0xFFFF0000⟩, by decide, rfl, ?_⟩
  have ha : (a.setWidth 32 <<< 8) &&& (0xFFFF0000 : Word) = 0 := by revert a; decide
  have hb : b.setWidth 32 &&& (0xFFFF0000 : Word) = 0 := by revert b; decide
  show (0x20000000 ||| (a.setWidth 32 <<< 8) ||| b.setWidth 32) &&& (0xFFFF0000 : Word) = 0x20000000
  rw [show ∀ x y z m : Word, (x ||| y ||| z) &&& m = (x &&& m) ||| (y &&& m) ||| (z &&& m) from
    fun x y z m => by ext; simp [Bool.and_or_distrib_right], ha, hb]
  decide

theorem bchFmt (ecl : BitVec 2) (mask : BitVec 3) : Statement (.bchFmt ecl mask) :=
  ⟨⟨0x30, .bchFmt, 0x30000000, 0xFFFFFCF8⟩, by decide, rfl, by revert ecl mask; decide⟩
theorem bchVer (ver : BitVec 6) : Statement (.bchVer ver) :=
  ⟨⟨0x31, .bchVer, 0x31000000, 0xFFFFFFC0⟩, by decide, rfl, by revert ver; decide⟩

end EncodeInRow

namespace AsmWellFormed

/-- A byte fits its field. -/
theorem byte_admits (a : BitVec 8) : FieldKind.byte.admits (.num a.toNat) = true :=
  decide_eq_true (show a.toNat ≤ 255 from Nat.le_of_lt_succ a.isLt)

theorem nop : Statement .nop := rfl
theorem srst : Statement .srst := rfl
theorem clrerr : Statement .clrerr := rfl
theorem rsClr : Statement .rsClr := rfl
theorem rsRdcfg : Statement .rsRdcfg := rfl
theorem oneByte (m : Mnemonic) (a : BitVec 8) (h : m.operandFields = [.byte]) :
    (AsmCommand.mk m [.num a.toNat]).wf = true := by
  simp [AsmCommand.wf, h, operandsFit, byte_admits]
theorem rsCfg (a : BitVec 8) : Statement (.rsCfg a) := oneByte _ a rfl
theorem rsFeed (a : BitVec 8) : Statement (.rsFeed a) := oneByte _ a rfl
theorem rsRdpar (a : BitVec 8) : Statement (.rsRdpar a) := oneByte _ a rfl
theorem rsRdgen (a : BitVec 8) : Statement (.rsRdgen a) := oneByte _ a rfl
theorem gfExp (a : BitVec 8) : Statement (.gfExp a) := oneByte _ a rfl
theorem gfLog (a : BitVec 8) : Statement (.gfLog a) := oneByte _ a rfl
theorem gfInv (a : BitVec 8) : Statement (.gfInv a) := oneByte _ a rfl
theorem gfMul (a b : BitVec 8) : Statement (.gfMul a b) := by
  simp [Statement, Instr.wf, Instr.asm, AsmCommand.wf, Mnemonic.operandFields, operandsFit, byte_admits]
theorem bchFmt (ecl : BitVec 2) (mask : BitVec 3) : Statement (.bchFmt ecl mask) := by
  unfold Statement; revert ecl mask; decide
theorem bchVer (ver : BitVec 6) : Statement (.bchVer ver) := by
  unfold Statement; revert ver; decide

end AsmWellFormed

end Sys2Proof.Laws
end

