-- ==== Sys2Proof/Laws/RegFile.lean ====
section
/-! SUPPORT. Laws/RegFile.lean: the entries of the register files that RS_CFG and RS_FEED write. -/

namespace Sys2Proof.Machine

/-- GEN[i] as RS_CFG loads it (R66). -/
theorem genFile_getElem (e i : Nat) (h : i < 30) :
    (genFile e)[i] = if i < e then (genCoeffs e).getD i 0 else 0 := by
  simp [genFile]

/-- GEN[i] is 0 from index E on (R19). -/
theorem genFile_above {e i : Nat} (h : i < 30) (hi : e ≤ i) : (genFile e)[i] = 0 := by
  rw [genFile_getElem, if_neg (by omega)]

/-- PAR[i] after RS_FEED (R68). -/
theorem feedPar_getElem (e : Fin 31) (par gen : RegFile) (d : Elem) (i : Nat) (h : i < 30) :
    (feedPar e par gen d)[i] = feedEntry e par gen (gfAdd d par[0]) ⟨i, h⟩ := by
  simp [feedPar]

/-- RS_FEED "writes only indices below E" (R18). -/
theorem feedPar_above {e : Fin 31} {par gen : RegFile} {d : Elem} {i : Nat} (h : i < 30) (hi : e.val ≤ i) :
    (feedPar e par gen d)[i] = par[i] := by
  rw [feedPar_getElem, feedEntry, dif_neg (by simp; omega), if_neg (by simp; omega)]
  rfl

end Sys2Proof.Machine
end

