-- ==== Sys2Proof/Laws/Safety.lean ====
section
/-! SUPPORT. Laws/Safety.lean: the small lemmas of the terms of Safety.lean: the error record, what an error depends on,
and the data codewords of the current block. -/

namespace Sys2Proof.Safety

open Sys2Proof.Machine

/-- The machine's error record is the one of R83 and R85. -/
theorem raiseErr_eq_recorded (c : ErrorCode) (s : State) : raiseErr c s = recorded (numberOf c) s := by
  cases h : s.err <;> simp [raiseErr, recorded, h] <;> cases c <;> rfl

/-- Which error a command raises depends on E and CNT alone (R83). -/
theorem firstError_congr (i : Instr) {s t : State} (he : t.e = s.e) (hc : t.cnt = s.cnt) :
    firstError i t = firstError i s := by
  have : ∀ c, applies c i t = applies c i s := fun c => by cases c <;> (cases i <;> simp only [applies, he, hc])
  simp only [firstError, this]

@[simp] theorem fedAfter_assertReset (s : State) (ds : List Byte) : fedAfter .assertReset s ds = [] := rfl
@[simp] theorem fedAfter_releaseReset (s : State) (ds : List Byte) : fedAfter .releaseReset s ds = ds := rfl
@[simp] theorem fedAfter_read (o : BitVec 4) (b : Nat) (s : State) (ds : List Byte) : fedAfter (.read o b) s ds = ds := rfl
@[simp] theorem fedAfter_command (b : Nat) (w : Word) (s : State) (ds : List Byte) :
    fedAfter (.write 0#4 b w) s ds = fedByWord w s ds := rfl
theorem fedAfter_ignored {o : BitVec 4} (b : Nat) (w : Word) (s : State) (ds : List Byte) (h : o ≠ 0x0) :
    fedAfter (.write o b w) s ds = ds := if_neg h

/-- Whose parity PAR holds depends on the RS unit's registers alone. -/
theorem HoldsParityOf.congr {s t : State} {ds : List Byte} (h : HoldsParityOf s ds) (he : t.e = s.e) (hc : t.cnt = s.cnt)
    (hp : t.par = s.par) (hg : t.gen = s.gen) : HoldsParityOf t ds := by
  rw [HoldsParityOf, he, hc, hp, hg]
  exact h

end Sys2Proof.Safety
end

