-- ==== Sys2Proof/Tests/Slice0.lean ====
section
/-! SUPPORT. Tests/Slice0.lean: the model's own tests. Expected values come from spec/95_test_vectors.md and from the
examples of the command rules, never from the model. Tests/Witnesses.lean shows that the hypotheses of the statements
can be met. -/

namespace Sys2Proof.Tests

open Sys2Proof Sys2Proof.Machine Sys2Proof.Safety

/-! ## Well-formedness: one ill-formed term for each check -/

theorem test_wf_accepts : (AsmCommand.mk .gfMul [.num 255, .num 0]).wf = true := by decide
theorem test_wf_refuses_a_missing_operand : (AsmCommand.mk .gfMul [.num 1]).wf = false := by decide
theorem test_wf_refuses_an_extra_operand : (AsmCommand.mk .nop [.num 0]).wf = false := by decide
theorem test_wf_refuses_a_byte_above_255 : (AsmCommand.mk .rsCfg [.num 256]).wf = false := by decide
theorem test_wf_refuses_an_ecl_above_3 : (AsmCommand.mk .bchFmt [.num 4, .num 0]).wf = false := by decide
theorem test_wf_refuses_a_mask_above_7 : (AsmCommand.mk .bchFmt [.num 0, .num 8]).wf = false := by decide
theorem test_wf_refuses_a_version_above_63 : (AsmCommand.mk .bchVer [.num 64]).wf = false := by decide
theorem test_wf_refuses_a_letter_for_a_byte : (AsmCommand.mk .rsFeed [.letter .q]).wf = false := by decide
theorem test_wf_refuses_a_word_above_32_bits : (AsmLine.word (2 ^ 32)).wf = false := by decide

/-! ## Decoding: a word of each command, from the bit diagrams of R40 and the opcodes of R42 -/

theorem test_decode_nop : decode 0b00000000_00000000_00000000_00000000 = .command .nop := by decide
theorem test_decode_srst : decode 0b00000001_00000000_00000000_00000000 = .command .srst := by decide
theorem test_decode_clrerr : decode 0b00000010_00000000_00000000_00000000 = .command .clrerr := by decide
theorem test_decode_rsCfg : decode 0b00010000_00000000_00000000_00011110 = .command (.rsCfg 30) := by decide
theorem test_decode_rsClr : decode 0b00010001_00000000_00000000_00000000 = .command .rsClr := by decide
theorem test_decode_rsFeed : decode 0b00010010_00000000_00000000_11101100 = .command (.rsFeed 0xEC) := by decide
theorem test_decode_rsRdpar : decode 0b00010011_00000000_00000000_00101000 = .command (.rsRdpar 40) := by decide
theorem test_decode_rsRdgen : decode 0b00010100_00000000_00000000_00011101 = .command (.rsRdgen 29) := by decide
theorem test_decode_rsRdcfg : decode 0b00010101_00000000_00000000_00000000 = .command .rsRdcfg := by decide
theorem test_decode_gfMul : decode 0b00100000_00000000_10000000_00000010 = .command (.gfMul 0x80 0x02) := by decide
theorem test_decode_gfExp : decode 0b00100001_00000000_00000000_11111111 = .command (.gfExp 255) := by decide
theorem test_decode_gfLog : decode 0b00100010_00000000_00000000_00000011 = .command (.gfLog 3) := by decide
theorem test_decode_gfInv : decode 0b00100011_00000000_00000000_10001110 = .command (.gfInv 0x8E) := by decide
theorem test_decode_bchFmt : decode 0b00110000_00000000_00000011_00000111 = .command (.bchFmt 3 7) := by decide
theorem test_decode_bchVer : decode 0b00110001_00000000_00000000_00100001 = .command (.bchVer 33) := by decide
theorem test_decode_reserved_wins : decode 0x10800000 = .reservedBits := by decide
theorem test_decode_illegal_wins : decode 0xFF0000FF = .illegalOpcode := by decide
theorem test_decode_lanes : decodeLanes [0x09, 0x00, 0x00, 0x13] = some (.command (.rsRdpar 9)) := by decide
theorem test_decode_table_word : decodeTableWord 32 0x20005783 = some (.gfMul 0x57 0x83) := by decide

/-! ## One step from a small state -/

/-- A register file from its first entries. -/
def fileOf (l : List Byte) : RegFile := Vector.ofFn (fun i : Fin 30 => l.getD i.val 0)

/-- A block in progress: E, CNT, the first entries of PAR and of GEN. -/
def blockState (e : Fin 31) (cnt : BitVec 8) (par gen : List Byte) : State :=
  { State.reset with e := e, cnt := cnt, par := fileOf par, gen := fileOf gen }

/-- E = 2 after the feeds 12 34 (R72). -/
def midBlock : State := blockState 2 2 [0x22, 0x04] [0x03, 0x02]

/-- The state after one command word. -/
def afterWord (s : State) (w : Nat) : Option State :=
  match step (s.withFetchWord 32 w) with
  | .next t => some t
  | .fault _ => none
  | .refused _ => none

/-- RES and STAT after one command word. -/
def resStat (s : State) (w : Nat) : Option (Word × Word) := (afterWord s w).map (fun t => (t.res, t.statWord))

/-- E, CNT and the first entries of PAR after one command word. -/
def blockAfter (n : Nat) (s : State) (w : Nat) : Option (Nat × Nat × List Byte) :=
  (afterWord s w).map (fun t => (t.e.val, t.cnt.toNat, t.par.toList.take n))

theorem test_nop_keeps_res_and_stat :
    resStat { State.reset with res := 0x2A, err := true, ecode := 3 } 0x00000000 = some (0x2A, 0x31) := by decide
theorem test_nop_word_with_bit_23 : resStat State.reset 0x00800000 = some (0, 0x21) := by decide
theorem test_srst_clears : resStat { midBlock with res := 0x17, err := true, ecode := 4 } 0x01000000 = some (0, 0) := by
  decide
theorem test_clrerr_keeps_cfg : resStat { midBlock with err := true, ecode := 4 } 0x02000000 = some (0, 0x02) := by decide
theorem test_clrerr_malformed : resStat { State.reset with err := true, ecode := 5 } 0x02000001 = some (0, 0x51) := by decide
theorem test_illegal_opcode : resStat State.reset 0x16000000 = some (0, 0x11) := by decide
theorem test_first_error_kept : resStat { State.reset with err := true, ecode := 1 } 0x23000000 = some (0, 0x11) := by
  decide

theorem test_rsCfg_same_e_clears : blockAfter 2 midBlock 0x10000002 = some (2, 0, [0, 0]) := by decide
theorem test_rsCfg_31_keeps_the_block : blockAfter 2 midBlock 0x1000001F = some (2, 2, [0x22, 0x04]) := by decide
theorem test_rsClr_keeps_e : blockAfter 2 midBlock 0x11000000 = some (2, 0, [0, 0]) := by decide
theorem test_rsFeed_worked_example : blockAfter 3 midBlock 0x12000056 = some (2, 3, [0x98, 0xE8, 0]) := by decide
theorem test_rsFeed_length_limit :
    resStat (blockState 30 225 [] []) 0x12000055 = some (0, 0x63) ∧
    blockAfter 1 (blockState 30 225 [1] []) 0x12000055 = some (30, 225, [1]) := by decide
theorem test_rsRdpar_of_the_prefix : resStat midBlock 0x13000000 = some (0x22, 0x02) := by decide
theorem test_rsRdpar_unconfigured_wins : resStat State.reset 0x13000028 = some (0, 0x41) := by decide
theorem test_rsRdgen_last : resStat midBlock 0x14000001 = some (0x02, 0x02) := by decide
theorem test_rsRdgen_at_e : resStat midBlock 0x14000002 = some (0, 0x33) := by decide
theorem test_rsRdcfg_layout : resStat (blockState 30 225 [] []) 0x15000000 = some (0xE11E, 0x02) := by decide
theorem test_gfMul_53_CA : resStat State.reset 0x200053CA = some (0x8F, 0) := by decide
theorem test_gfMul_FF_FF : resStat State.reset 0x2000FFFF = some (0xE2, 0) := by decide
theorem test_gfExp_254 : resStat State.reset 0x210000FE = some (0x8E, 0) := by decide +kernel
theorem test_gfExp_255 : resStat State.reset 0x210000FF = some (0x01, 0) := by decide
theorem test_gfLog_FF : resStat State.reset 0x220000FF = some (0xAF, 0) := by decide
theorem test_gfLog_0 : resStat { State.reset with res := 0xCA } 0x22000000 = some (0xCA, 0x51) := by decide
theorem test_gfInv_53 : resStat State.reset 0x23000053 = some (0x8C, 0) := by decide
theorem test_gfInv_0 : resStat { State.reset with res := 0xCA } 0x23000000 = some (0xCA, 0x51) := by decide
theorem test_bchFmt_Q_3 : resStat State.reset 0x30000203 = some (0x3A06, 0) := by decide
theorem test_bchFmt_H_7 : resStat State.reset 0x30000307 = some (0x083B, 0) := by decide
theorem test_bchVer_40 : resStat State.reset 0x31000028 = some (0x28C69, 0) := by decide
theorem test_bchVer_41 : resStat { State.reset with res := 0xCA } 0x31000029 = some (0xCA, 0x31) := by decide

/-- GEN for E = 7 (R62) and the last coefficient for E = 30 (R70). -/
theorem test_generator : genCoeffs 7 = [0x7F, 0x7A, 0x9A, 0xA4, 0x0B, 0x44, 0x75] ∧ (genFile 30)[29] = 0x96 := by
  decide +kernel

/-- R72 by long division. -/
theorem test_parity_by_division : rsParity 2 [0x12, 0x34, 0x56] = [0x98, 0xE8] := by decide

/-- The last row of the shift-register trace of section 5.4. -/
theorem test_serial : bchSerial 10 0x537 0b11011 5 0 = 0b1000010100 := by decide

/-- The host interleave of P2. -/
theorem test_interleave : interleave [[0x12, 0x34, 0x56], [0x10, 0x20, 0x30, 0x40]] [[0x98, 0xE8], [0x40, 0x00]] =
    [0x12, 0x10, 0x34, 0x20, 0x56, 0x30, 0x40, 0x98, 0x40, 0xE8, 0x00] := by decide

/-- Assembler lines of P1, P3 and P4. -/
theorem test_parse_command : parseLine ['R','S','_','F','E','E','D',' ','0','x','5','B',' ',';',' ','d'] =
    some (.command ⟨.rsFeed, [.num 0x5B]⟩) := by decide
theorem test_parse_letter : parseLine ['B','C','H','_','F','M','T',' ','Q',',',' ','3'] =
    some (.command ⟨.bchFmt, [.letter .q, .num 3]⟩) := by decide
theorem test_parse_read : (parseLine ['r','d',' ','S','T','A','T']).bind lineEvents = some [.read 0x8 32] := by decide

/-! ## The port -/

/-- A state whose host issues these events. -/
def hostIssues (evs : List HostEvent) : State := { State.reset with res := 0x9, pending := evs }

/-- The values read, if the step answers a next state. -/
def readsAfter (s : State) : Option (List Word) :=
  match step s with
  | .next t => some t.readLog
  | .fault _ => none
  | .refused _ => none

theorem test_read_cmd : readsAfter (hostIssues [.read 0x0 32]) = some [0] := by decide
theorem test_read_res : readsAfter (hostIssues [.read 0x4 32]) = some [9] := by decide
theorem test_read_stat : readsAfter { midBlock with err := true, ecode := 4, pending := [.read 0x8 32] } = some [0x43] := by
  decide
theorem test_write_to_stat_ignored : step (hostIssues [.write 0x8 32 0xF1]) = .next (hostIssues []) := by rfl
theorem test_read_at_2_refused : step (hostIssues [.read 0x2 32]) = .refused .accessNotAdmitted := by rfl

end Sys2Proof.Tests
end

