-- ==== Sys2Proof/Tests/Witnesses.lean ====
section
/-! SUPPORT. Tests/Witnesses.lean: for each statement with hypotheses, concrete states and operands that meet them
together, clause by clause. -/

namespace Sys2Proof.Tests

open Sys2Proof Sys2Proof.Machine Sys2Proof.Safety

/-- The reset state with a host that writes one command word: the hypotheses on the state of every statement about a
CMD write. -/
theorem witness_command_write (w : Nat) (h : w < 2 ^ 32) :
    (State.reset.withFetchWord 32 w).inReset = false ∧
    (State.reset.withFetchWord 32 w).pending = .write 0x0 32 (BitVec.ofNat 32 w) :: [] := by
  refine ⟨rfl, ?_⟩
  show [HostEvent.write 0x0 32 (BitVec.ofNat 32 (w % 2 ^ 32))] = _
  rw [Nat.mod_eq_of_lt h]

theorem witness_EncodeDecodeRoundTrip : decode 0x1000000A = .command (.rsCfg 10) := by decide
theorem witness_WordIsRowCommandExactlyWhenItMatches :
    (⟨0x31, .bchVer, 0x31000000, 0xFFFFFFC0⟩ : OpRow) ∈ opTable ∧ (0x3100003F : Word) &&& 0xFFFFFFC0 = 0x31000000 := by
  decide
theorem witness_OperandsAreTheFieldBits : decode 0x2000CA53 = .command (.gfMul 0xCA 0x53) := by decide

/-- A word for each of the three cases; the state is that of `witness_command_write`. -/
theorem witness_CommandWriteIsOneOfThreeCases :
    (∀ r ∈ opTable, r.op ≠ (0x03000000 : Word).extractLsb' 24 8) ∧
    (∃ r ∈ opTable, r.op = (0x20010203 : Word).extractLsb' 24 8 ∧ (0x20010203 : Word) &&& r.mask ≠ r.matchBits) ∧
    (∃ r ∈ opTable, (0x2000FFFF : Word) &&& r.mask = r.matchBits) := by decide

/-- The ends of every opcode range of R44 meet the first hypothesis, and the record is what the vectors say. -/
theorem witness_IllegalOpcodes :
    ∀ op ∈ [0x03, 0x0F, 0x16, 0x1F, 0x24, 0x2F, 0x32, 0xFF],
      ((0x03 ≤ op ∧ op ≤ 0x0F) ∨ (0x16 ≤ op ∧ op ≤ 0x1F) ∨ (0x24 ≤ op ∧ op ≤ 0x2F) ∨ (0x32 ≤ op ∧ op ≤ 0xFF)) ∧
      resStat State.reset (op * 2 ^ 24) = some (0, 0x11) := by decide

/-- The lowest and highest reserved bit of each format meet the second hypothesis. -/
theorem witness_ReservedBits :
    ∀ w ∈ [0x15000001, 0x00800000, 0x12000100, 0x10800000, 0x20010000, 0x20800000, 0x30000400, 0x30800000, 0x30000008,
      0x30000080, 0x31000040, 0x31800000], resStat State.reset w = some (0, 0x21) := by decide

theorem witness_AssemblerRoundTripAndRefusal :
    assemble ⟨.bchFmt, [.letter .q, .num 3]⟩ = some (.bchFmt 2 3) ∧ (AsmCommand.mk .bchVer [.num 64]).wf = false := by decide
theorem witness_StepRunsTheDecodedCommand :
    (State.reset.withFetchWord 32 0x21000008).pending = [.write 0x0 32 0x21000008] ∧
    decode 0x21000008 = .command (.gfExp 8) := ⟨rfl, by decide⟩
theorem witness_ReadOnlyAndReservedOffsets :
    (hostIssues [.write 0xC 32 5]).pending = .write 0xC 32 5 :: [] ∧ (hostIssues [.read 0xC 32]).pending = .read 0xC 32 :: [] ∧
    (hostIssues []).inReset = false ∧ step (hostIssues [.read 0x4 32]) = .next { hostIssues [] with readLog := [9] } :=
  ⟨rfl, rfl, rfl, rfl⟩
theorem witness_ResultAndStatusReads :
    (hostIssues [.read 0x8 32]).ecode.toNat ≤ 6 ∧
    7 ≤ ({ hostIssues [.read 0x8 32] with ecode := 7 } : State).ecode.toNat ∧
    ({ hostIssues [.read 0x8 32] with ecode := 7 } : State).pending = .read 0x8 32 :: [] := by decide
theorem witness_AccessesWithoutAStep :
    (hostIssues [.read 0x4 16]).pending = .read 0x4 16 :: [] ∧ (0x2 : BitVec 4).toNat % 4 ≠ 0 ∧
    ({ hostIssues [.read 0x4 32] with inReset := true } : State).inReset = true ∧ (hostIssues []).pending = [] := by decide
theorem witness_NextReadSeesTheCommandsResult :
    (hostIssues [.write 0x0 32 0x20000307, .read 0x4 32, .read 0x4 32]).pending =
      .write 0x0 32 0x20000307 :: .read 0x4 32 :: .read 0x4 32 :: [] ∧ (hostIssues []).inReset = false := ⟨rfl, rfl⟩
theorem witness_WindowAddressesSelectOffsets : Config.qreccBase + 16 ≤ Config.qreccBase + 16 := Nat.le_refl _
theorem witness_NopDoesNothingAndNothingElseDoes :
    (0x00000001 : Word).extractLsb' 24 8 = 0 ∧ (0x00000001 : Word) ≠ 0 ∧ (∀ s, exec .nop s = .next s) :=
  ⟨by decide, by decide, fun _ => rfl⟩
theorem witness_ClrerrClearsTheRecordOnly :
    (hostIssues []).err = false ∧ (hostIssues []).ecode = 0 ∧ (0x02000001 : Word).extractLsb' 24 8 = 0x02 ∧
    (0x02000001 : Word) ≠ 0x02000000 := by decide
theorem witness_HardwareResetAndSrstLeaveTheResetState :
    (hostIssues [.assertReset]).pending = .assertReset :: [] ∧
    (hostIssues [.releaseReset]).pending = .releaseReset :: [] := ⟨rfl, rfl⟩
theorem witness_nonzero_operand : (0xFF : BitVec 8) ≠ 0 ∧ (0x01 : BitVec 8) ≠ 0 := by decide
theorem witness_TableMethodEqualsShiftAndAdd : ((0 : Elem) = 0 ∨ (0x53 : Elem) = 0) ∧ (0x53 : Elem) ≠ 0 ∧ (0xCA : Elem) ≠ 0 := by
  decide
theorem witness_InverseIsTheUniqueOne : (0x02 : Elem) ≠ 0 ∧ gfMul 0x02 0x8E = 1 := by decide
theorem witness_GfExpReturnsThePower :
    exec (.gfExp 8) State.reset = .next { State.reset with res := (gfExpTable 8).setWidth 32 } := rfl
theorem witness_RsCfgStartsABlock :
    (30 < (31 : BitVec 8).toNat) ∧ (1 ≤ (1 : BitVec 8).toNat ∧ (1 : BitVec 8).toNat ≤ 30) ∧
    (1 ≤ (30 : BitVec 8).toNat ∧ (30 : BitVec 8).toNat ≤ 30) ∧ (0 : BitVec 8).toNat = 0 := by decide

/-- E = 2 as RS_CFG 2 leaves it. -/
def cfgTwo : State := { State.reset with e := 2, gen := genFile 2 }

theorem cfgTwo_inv : Inv cfgTwo where
  blockFits := by decide
  uncountedUnconfigured := by decide
  genOfE := rfl
  parAboveE := by decide
  errIffCode := by decide
  codeLegal := by decide
  heldInReset := fun h => absurd h (by decide)

/-- The reset state with another RES: unconfigured, and within the invariant. -/
theorem unconfigured_inv : Inv (hostIssues []) where
  blockFits := by decide
  uncountedUnconfigured := by decide
  genOfE := by decide
  parAboveE := by decide
  errIffCode := by decide
  codeLegal := by decide
  heldInReset := fun h => absurd h (by decide)

theorem witness_RsClrStartsABlockWithTheSameE : Inv (hostIssues []) ∧ (hostIssues []).e = 0 := ⟨unconfigured_inv, rfl⟩
theorem witness_ParityIsTheRemainderOfWhatWasFed :
    cfgTwo.e ≠ 0 ∧ cfgTwo.gen = genFile cfgTwo.e.val ∧ cfgTwo.cnt.toNat = ([] : List Byte).length ∧
    ([] : List Byte).length + cfgTwo.e.val < 255 ∧ entriesBelow cfgTwo.par cfgTwo.e = rsParity cfgTwo.e.val [] :=
  ⟨by decide, rfl, by decide, by decide, by decide⟩
theorem witness_CodewordVanishesAtTheRoots : (0 : Nat) < 2 ∧ (1 : Nat) < 2 := by decide
theorem witness_ParityIsLinear : ([1, 2, 3] : List Byte).length = ([4, 5, 6] : List Byte).length := rfl

/-- Each clause of the RS_FEED statement: unconfigured, full at the boundary, the last feed that fits, E = 1, zero
data over zero parity, fb = 0, and the example. -/
theorem witness_RsFeedShiftsOneCodewordIn :
    State.reset.e = 0 ∧ 255 ≤ (blockState 30 225 [] []).cnt.toNat + (blockState 30 225 [] []).e.val ∧
    (blockState 30 224 [] []).cnt.toNat + (blockState 30 224 [] []).e.val < 255 ∧ (blockState 30 224 [] []).e ≠ 0 ∧
    (blockState 1 0 [] [1]).gen = genFile 1 ∧ (∀ i : Fin 30, cfgTwo.par[i] = 0) ∧ (0x22 : BitVec 8) = midBlock.par[0] ∧
    cfgTwo.e.val = 2 ∧ cfgTwo.par = Vector.replicate 30 0 ∧ cfgTwo.cnt = 0 := by decide
theorem witness_RsRdparReadsOneEcCodeword :
    State.reset.e = 0 ∧ midBlock.e ≠ 0 ∧ midBlock.e.val ≤ (2 : BitVec 8).toNat ∧ (1 : BitVec 8).toNat = (1 : Fin 30).val ∧
    (1 : Fin 30).val < midBlock.e.val ∧ (1 : BitVec 8).toNat < midBlock.e.val ∧
    entriesBelow midBlock.par midBlock.e = rsParity midBlock.e.val [0x12, 0x34] := by decide
theorem witness_RsRdgenReadsOneCoefficient :
    State.reset.e = 0 ∧ cfgTwo.e.val ≤ (2 : BitVec 8).toNat ∧ cfgTwo.gen = genFile cfgTwo.e.val ∧
    (1 : BitVec 8).toNat + 1 = cfgTwo.e.val ∧ ({ State.reset with e := 7, gen := genFile 7 } : State).e.val = 7 :=
  ⟨rfl, by decide, rfl, by decide, rfl⟩
theorem witness_RsRdcfgReadsEAndCnt : (blockState 10 16 [] []).e.val = 10 ∧ (blockState 10 16 [] []).cnt = 16 := by decide
/-- Also the largest value that is its own remainder, and the highest multiple that fits the width. -/
theorem witness_BchRemainderIsBoundedAndLinear :
    6 + 12 ≤ 18 ∧ (0x7000 : BitVec 18).toNat < 2 ^ (6 + 12) ∧ 2 ^ 12 ≤ (0x1F25 : BitVec 18).toNat ∧
    (0x1F25 : BitVec 18).toNat < 2 ^ (12 + 1) ∧ (0xFFF : BitVec 18).toNat < 2 ^ 12 ∧ 5 < 6 := by decide
theorem witness_ShiftRegisterEqualsDivision :
    1 ≤ 10 ∧ 5 + 10 ≤ 18 ∧ (0b11011 : BitVec 18).toNat < 2 ^ 5 ∧ 2 ^ 10 ≤ (0x537 : BitVec 18).toNat ∧
    (0x537 : BitVec 18).toNat < 2 ^ (10 + 1) := by decide
theorem witness_BchVerReturnsTheVersionWord :
    (6 : BitVec 6).toNat < 7 ∧ 40 < (41 : BitVec 6).toNat ∧ 7 ≤ (7 : BitVec 6).toNat ∧ (40 : BitVec 6).toNat ≤ 40 ∧
    (7 : BitVec 6) ≠ 40 ∧ ((0, 0) : BitVec 2 × BitVec 3) ≠ (3, 7) := by decide
theorem witness_FormatAndVersionWordsRoundTrip :
    exec (.bchFmt 2 3) State.reset = .next { State.reset with res := (formatWord 2 3).setWidth 32 } ∧
    exec (.bchVer 7) State.reset = .next { State.reset with res := (versionWord 7).setWidth 32 } := ⟨rfl, rfl⟩
theorem witness_FirstApplicableErrorIsRecorded :
    firstError (.rsRdpar 40) State.reset = some .notConfigured ∧ firstError (.rsRdpar 40) midBlock = some .illegalOperand ∧
    firstError (.gfInv 0) midBlock = some .domain ∧ firstError (.rsFeed 0) (blockState 30 225 [] []) = some .length ∧
    decode 0x13000028 = .command (.rsRdpar 40) := by decide
theorem witness_OnlyErrorsAndClearsWriteTheRecord : firstError (.bchVer 40) State.reset = none := by decide
theorem witness_StepKeepsInvariant : ∃ s t : State, Inv s ∧ step s = .next t ∧ t.cnt = 1 :=
  ⟨{ cfgTwo with pending := [.write 0x0 32 0x12000012] }, _,
    ⟨cfgTwo_inv.1, cfgTwo_inv.2, cfgTwo_inv.3, cfgTwo_inv.4, cfgTwo_inv.5, cfgTwo_inv.6, fun h => absurd h (by decide)⟩, rfl, rfl⟩
theorem witness_OnlyCommandsAndResetChangeRegisters :
    (hostIssues [.write 0x4 32 7]).pending = .write 0x4 32 7 :: [] ∧
    step (hostIssues [.write 0x4 32 7]) = .next (hostIssues []) ∧ (∀ w, HostEvent.write 0x4 32 7 ≠ .write 0x0 32 w) ∧
    HostEvent.write 0x4 32 7 ≠ .assertReset ∧ Inv cfgTwo :=
  ⟨rfl, rfl, fun w h => by simp at h, by decide, cfgTwo_inv⟩

/-- A block of one data codeword, with RS_CLR and with RS_CFG as its first access. -/
theorem witness_BlockScriptReadsTheBlocksParity :
    Inv { cfgTwo with pending := blockScript 2 2 [0x12] } ∧ Inv { cfgTwo with pending := blockScript 2 30 [0x12] } ∧
    cfgTwo.inReset = false ∧ ([0x12] : List Byte).length + 30 ≤ 255 :=
  ⟨⟨cfgTwo_inv.1, cfgTwo_inv.2, cfgTwo_inv.3, cfgTwo_inv.4, cfgTwo_inv.5, cfgTwo_inv.6, fun h => absurd h (by decide)⟩,
   ⟨cfgTwo_inv.1, cfgTwo_inv.2, cfgTwo_inv.3, cfgTwo_inv.4, cfgTwo_inv.5, cfgTwo_inv.6, fun h => absurd h (by decide)⟩, rfl, by decide⟩
/-- A codeword in the column where the shorter block is exhausted, and one of the EC codewords (the blocks of P2). -/
theorem witness_InterleaveKeepsEveryCodeword :
    ([[0x12, 0x34, 0x56], [0x10, 0x20, 0x30, 0x40]] : List (List Byte))[1]? = some [0x10, 0x20, 0x30, 0x40] ∧
    ([0x10, 0x20, 0x30, 0x40] : List Byte)[3]? = some 0x40 ∧
    ([[0x98, 0xE8], [0x40, 0x00]] : List (List Byte))[0]? = some [0x98, 0xE8] ∧
    ([0x98, 0xE8] : List Byte)[1]? = some 0xE8 := by decide

/-- A feed taken from a block of no bytes, and one that LENGTH rejects, which keeps the bytes of the block. -/
theorem witness_StepKeepsTheBlocksParity :
    HoldsParityOf { cfgTwo with pending := [.write 0x0 32 0x12000012] } [] ∧
    (∃ t, step { cfgTwo with pending := [.write 0x0 32 0x12000012] } = .next t ∧ t.cnt = 1) ∧
    fedAfter (.write 0x0 32 0x12000012) cfgTwo [] = [0x12] ∧
    fedAfter (.write 0x0 32 0x12000012) { cfgTwo with cnt := 253 } [7] = [7] :=
  ⟨.inr ⟨rfl, by decide, by decide⟩, ⟨_, rfl, rfl⟩, by decide, by decide⟩
theorem witness_GfDivReturnsTheQuotient :
    (0x53 : Byte) ≠ 0 ∧ (hostIssues (gfDivFirst 0x53)).pending = gfDivFirst 0x53 ++ [] ∧
    (hostIssues (gfDivFirst 0x53)).inReset = false := by decide

/-- Each clause at a boundary of its condition: the largest E with the longest block, an empty block after RS_CLR, and
every index of the current E; and operands that the conditions shut out. -/
theorem witness_PseudoCommandsUnderTheirConditions :
    rsBlockOk 30 (List.replicate 225 0x12) = true ∧ rsBlockOk 31 [] = false ∧
    rsBlockOk 30 (List.replicate 226 0x12) = false ∧ rsRefeedOk cfgTwo [] = true ∧ rsRefeedOk State.reset [] = false ∧
    cfgTwo.gen = genFile cfgTwo.e.val ∧ rsReadallOk cfgTwo 2 = true ∧ rsReadallOk cfgTwo 3 = false ∧
    gfDivOk 0x01 = true ∧ gfDivOk 0x00 = false ∧ (hostIssues (gfSqr 0x80)).inReset = false :=
  ⟨by rw [rsBlockOk_iff, List.length_replicate]; decide, by decide,
    by rw [Bool.eq_false_iff, ne_eq, rsBlockOk_iff, List.length_replicate]; decide, by decide, by decide,
    rfl, by decide, by decide, by decide, by decide, rfl⟩

end Sys2Proof.Tests
end

section
/-! Proofs of the port's statements (spec/20_memory.md): what `step` does on an access that R29 admits, one lemma per
kind of access, and the statements read off them. -/

namespace Sys2Proof.Machine

/-- R29 as a proposition. -/
theorem admitted_iff (o : BitVec 4) (bits : Nat) : admitted o bits = true ↔ bits = 32 ∧ o.toNat % 4 = 0 := by
  simp [admitted]

/-- A step takes the next event off the host's accesses and serves it (R36, R103). -/
theorem step_of_pending {s : State} {ev : HostEvent} {rest : List HostEvent} (hp : s.pending = ev :: rest) :
    step s = serve ev { s with pending := rest } := by
  simp only [step, hp]

/-- Out of reset, an admitted write reaches the port. -/
theorem step_write_admitted {s : State} {o : BitVec 4} {v : Word} {rest : List HostEvent} (hr : s.inReset = false)
    (ho : o.toNat % 4 = 0) (hp : s.pending = .write o 32 v :: rest) :
    step s = portWrite o v { s with pending := rest } := by
  have hadm : admitted o 32 = true := (admitted_iff o 32).2 ⟨rfl, ho⟩
  simp [step_of_pending hp, serve, hr, hadm]

/-- Out of reset, an admitted read reaches the port. -/
theorem step_read_admitted {s : State} {o : BitVec 4} {rest : List HostEvent} (hr : s.inReset = false)
    (ho : o.toNat % 4 = 0) (hp : s.pending = .read o 32 :: rest) :
    step s = portRead o { s with pending := rest } := by
  have hadm : admitted o 32 = true := (admitted_iff o 32).2 ⟨rfl, ho⟩
  simp [step_of_pending hp, serve, hr, hadm]

/-- The port ignores a write outside CMD (R28). -/
theorem portWrite_of_ne_cmd {o : BitVec 4} (h : o ≠ 0x0) (v : Word) (s : State) : portWrite o v s = .next s :=
  if_neg h

/-- Outside STAT the port answers every read with its value. -/
theorem portRead_of_ne_stat {o : BitVec 4} (h : o ≠ 0x8) (s : State) :
    portRead o s = .next (s.receive (portValue o s)) :=
  if_neg fun hstat => h hstat.1

/-- CMD and the reserved offset hold no register: outside RES and STAT the value is 0 (R28). -/
theorem portValue_of_no_register {o : BitVec 4} (hres : o ≠ 0x4) (hstat : o ≠ 0x8) (s : State) :
    portValue o s = 0x00000000 := by
  rw [portValue, if_neg hres, if_neg hstat]

/-- A step on a read that answers a next state has only taken the read and handed the host the port's value (R28). -/
theorem step_read_next {s t : State} {o : BitVec 4} {bits : Nat} {rest : List HostEvent}
    (hp : s.pending = .read o bits :: rest) (h : step s = .next t) :
    t = ({ s with pending := rest } : State).receive (portValue o { s with pending := rest }) := by
  obtain ⟨ev, rest', hp', hcase⟩ := step_next_cases h
  obtain ⟨rfl, rfl⟩ : ev = .read o bits ∧ rest' = rest := by simpa [eq_comm] using hp'.symm.trans hp
  rcases hcase with ⟨_, hev, _⟩ | ⟨_, _, hev, _⟩ | ⟨_, hev, _, ht⟩ | ⟨hev, _⟩ | ⟨hev, _⟩
  case inr.inr.inl => cases hev; exact ht
  all_goals cases hev

end Sys2Proof.Machine

namespace Sys2Proof.Proofs

open Sys2Proof Sys2Proof.Machine

/-- Settles O10: the ignored writes are not at CMD, CMD and 0xC hold no register, and a read that answers has only
received a value. -/
theorem readOnlyAndReservedOffsets : Obligations.ReadOnlyAndReservedOffsets := by
  refine ⟨?ignoredWrites, ?zeroReads, ?readsOnlyReturn⟩
  case ignoredWrites =>
    intro s o v rest hr ho hp
    have haligned : o.toNat % 4 = 0 := by rcases ho with rfl | rfl | rfl <;> rfl
    have hcmd : o ≠ 0x0 := by rcases ho with rfl | rfl | rfl <;> decide
    rw [step_write_admitted hr haligned hp, portWrite_of_ne_cmd hcmd]
  case zeroReads =>
    intro s o rest hr ho hp
    have haligned : o.toNat % 4 = 0 := by rcases ho with rfl | rfl <;> rfl
    obtain ⟨hres, hstat⟩ : o ≠ 0x4 ∧ o ≠ 0x8 := by rcases ho with rfl | rfl <;> decide
    rw [step_read_admitted hr haligned hp, portRead_of_ne_stat hstat, portValue_of_no_register hres hstat]
    rfl
  case readsOnlyReturn =>
    intro s t o bits rest hp h
    exact ⟨_, step_read_next hp h⟩

end Sys2Proof.Proofs
end

section
/-! Proofs of the encoding's statements (spec/30_encoding.md): when each of the three cases of R43 is the answer of
`decode`, what the decoder reads in each field, what a reserved field that is not 0 does, and the statements read off
them. -/

namespace Sys2Proof

/-! ## The three cases of decoding (R43) -/

/-- Step 1 of R43: the opcode stands in no row. -/
theorem decode_eq_illegalOpcode_iff {w : Word} : decode w = .illegalOpcode ↔ ∀ r ∈ opTable, r.op ≠ opcode w := by
  rw [← rowOf?_none]
  cases hrow : rowOf? (opcode w) with
  | none => simp [decode, hrow]
  | some r => simp only [decode, hrow]; split <;> simp

/-- Step 2 of R43: the row of the opcode does not match the word. -/
theorem decode_of_mismatch {w : Word} {r : OpRow} (hr : r ∈ opTable) (hop : opcode w = r.op)
    (h : w &&& r.mask ≠ r.matchBits) : decode w = .reservedBits := by
  rw [decode_of_row hr hop, if_neg h]

/-- Step 3 of R43: a command is that of a row the word matches, with the operands of the word. -/
theorem decode_eq_command_iff {w : Word} {i : Instr} :
    decode w = .command i ↔ ∃ r ∈ opTable, w &&& r.mask = r.matchBits ∧ instrOf r.mnemonic w = i := by
  constructor
  · intro h
    cases hrow : rowOf? (opcode w) with
    | none => simp [decode, hrow] at h
    | some r =>
      obtain ⟨hr, hop⟩ := rowOf?_some hrow
      rw [decode_of_row hr hop.symm] at h
      split at h
      next hmatch => exact ⟨r, hr, hmatch, Decoded.command.inj h⟩
      next => cases h
  · rintro ⟨r, hr, hmatch, rfl⟩
    exact decode_of_match hr hmatch

/-- A mnemonic stands in one row only. -/
theorem opTable_mnemonic_unique : ∀ r ∈ opTable, ∀ q ∈ opTable, r.mnemonic = q.mnemonic → r = q := by decide

/-- "No word matches two rows" (R43): a word has one opcode. -/
theorem row_eq_of_match {w : Word} {r q : OpRow} (hr : r ∈ opTable) (hq : q ∈ opTable)
    (hwr : w &&& r.mask = r.matchBits) (hwq : w &&& q.mask = q.matchBits) : r = q :=
  opTable_op_unique r hr q hq ((opcode_of_match hr hwr).symm.trans (opcode_of_match hq hwq))

/-- Every mnemonic has a row (R42). -/
theorem opTable_has_mnemonic (m : Mnemonic) : ∃ r ∈ opTable, r.mnemonic = m := by cases m <;> decide

/-! ## The fields of a word (R40, R41) -/

theorem opcode_toNat (w : Word) : (opcode w).toNat = w.toNat / 2 ^ 24 := by
  have := w.isLt
  simp only [opcode, BitVec.extractLsb'_toNat, Nat.shiftRight_eq_div_pow]
  omega

theorem fieldLow_toNat (w : Word) : (fieldLow w).toNat = w.toNat % 2 ^ 8 := BitVec.extractLsb'_toNat 0 8 w

theorem fieldHigh_toNat (w : Word) : (fieldHigh w).toNat = w.toNat / 2 ^ 8 % 2 ^ 8 := by
  simp only [fieldHigh, BitVec.extractLsb'_toNat, Nat.shiftRight_eq_div_pow]

theorem fieldEcl_toNat (w : Word) : (fieldEcl w).toNat = w.toNat / 2 ^ 8 % 2 ^ 2 := by
  simp only [fieldEcl, BitVec.extractLsb'_toNat, Nat.shiftRight_eq_div_pow]

theorem fieldMask_toNat (w : Word) : (fieldMask w).toNat = w.toNat % 2 ^ 3 := BitVec.extractLsb'_toNat 0 3 w

theorem fieldVer_toNat (w : Word) : (fieldVer w).toNat = w.toNat % 2 ^ 6 := BitVec.extractLsb'_toNat 0 6 w

/-! ## The word of a command decodes to it (R42, R47) -/

/-- The word of a command matches the row of its mnemonic. -/
theorem encode_inRow (i : Instr) : Laws.EncodeInRow.Statement i := by
  cases i with
  | nop => exact Laws.EncodeInRow.nop
  | srst => exact Laws.EncodeInRow.srst
  | clrerr => exact Laws.EncodeInRow.clrerr
  | rsCfg a => exact Laws.EncodeInRow.rsCfg a
  | rsClr => exact Laws.EncodeInRow.rsClr
  | rsFeed a => exact Laws.EncodeInRow.rsFeed a
  | rsRdpar a => exact Laws.EncodeInRow.rsRdpar a
  | rsRdgen a => exact Laws.EncodeInRow.rsRdgen a
  | rsRdcfg => exact Laws.EncodeInRow.rsRdcfg
  | gfMul a b => exact Laws.EncodeInRow.gfMul a b
  | gfExp a => exact Laws.EncodeInRow.gfExp a
  | gfLog a => exact Laws.EncodeInRow.gfLog a
  | gfInv a => exact Laws.EncodeInRow.gfInv a
  | bchFmt ecl mask => exact Laws.EncodeInRow.bchFmt ecl mask
  | bchVer ver => exact Laws.EncodeInRow.bchVer ver

/-- Under an opcode with nothing below it, the low byte of a word is the byte put there. -/
theorem fieldLow_or_byte {op : Word} (hop : fieldLow op = 0#8) (a : BitVec 8) :
    fieldLow (op ||| a.setWidth 32) = a := by
  have ha : fieldLow (a.setWidth 32) = a :=
    (BitVec.extractLsb'_setWidth_of_le (by decide)).trans BitVec.extractLsb'_eq_self
  calc fieldLow (op ||| a.setWidth 32)
    _ = fieldLow op ||| fieldLow (a.setWidth 32) := BitVec.extractLsb'_or
    _ = a := by rw [hop, ha, BitVec.zero_or]

/-- The fields of a GF_MUL word are the operands put there. -/
theorem fields_gfMul (a b : BitVec 8) :
    fieldHigh (encode (.gfMul a b)) = a ∧ fieldLow (encode (.gfMul a b)) = b := by
  have hlow : fieldLow (0x20000000 ||| (a.setWidth 32 <<< 8)) = 0#8 := by revert a; decide
  refine ⟨?_, fieldLow_or_byte hlow b⟩
  have ha : fieldHigh (a.setWidth 32 <<< 8) = a := by revert a; decide
  have hb : fieldHigh (b.setWidth 32) = 0#8 := by revert b; decide
  calc fieldHigh (encode (.gfMul a b))
    _ = fieldHigh 0x20000000 ||| fieldHigh (a.setWidth 32 <<< 8) ||| fieldHigh (b.setWidth 32) := by
      simp only [encode, fieldHigh, BitVec.extractLsb'_or]; rfl
    _ = 0#8 ||| a ||| 0#8 := by rw [ha, hb]; rfl
    _ = a := by rw [BitVec.or_zero, BitVec.zero_or]

/-- The operands read from the word of a command are the command's. -/
theorem instrOf_encode (i : Instr) : instrOf i.mnemonic (encode i) = i := by
  cases i with
  | nop | srst | clrerr | rsClr | rsRdcfg => rfl
  | rsCfg a => exact congrArg Instr.rsCfg (fieldLow_or_byte rfl a)
  | rsFeed a => exact congrArg Instr.rsFeed (fieldLow_or_byte rfl a)
  | rsRdpar a => exact congrArg Instr.rsRdpar (fieldLow_or_byte rfl a)
  | rsRdgen a => exact congrArg Instr.rsRdgen (fieldLow_or_byte rfl a)
  | gfExp a => exact congrArg Instr.gfExp (fieldLow_or_byte rfl a)
  | gfLog a => exact congrArg Instr.gfLog (fieldLow_or_byte rfl a)
  | gfInv a => exact congrArg Instr.gfInv (fieldLow_or_byte rfl a)
  | gfMul a b =>
    obtain ⟨ha, hb⟩ := fields_gfMul a b
    exact congrArg₂ Instr.gfMul ha hb
  | bchFmt ecl mask => revert ecl mask; decide
  | bchVer ver => revert ver; decide

theorem decode_encode (i : Instr) : decode (encode i) = .command i := by
  obtain ⟨r, hr, hm, hmatch⟩ := encode_inRow i
  rw [decode_of_match hr hmatch, hm, instrOf_encode]

/-! ## Reserved fields (R40, R45) -/

/-- The opcode map has a row for the opcode, and its mask and match value ask for 0 in the `n` bits from bit `lo`. -/
def ReservesField (op lo n : Nat) : Prop :=
  ∃ r ∈ opTable, r.op.toNat = op ∧ r.mask.extractLsb' lo n = BitVec.allOnes n ∧ r.matchBits.extractLsb' lo n = 0

/-- A word that matches holds the match value's bits wherever the mask is all ones. -/
theorem extractLsb'_of_match {w mask value : Word} {lo n : Nat} (h : w &&& mask = value)
    (hmask : mask.extractLsb' lo n = BitVec.allOnes n) : w.extractLsb' lo n = value.extractLsb' lo n := by
  rw [← h, BitVec.extractLsb'_and, hmask, BitVec.and_allOnes]

/-- A word with a reserved field that is not 0 is the second case of R43. -/
theorem decode_of_reserved_field {w : Word} {op lo n : Nat} (hop : w.toNat / 2 ^ 24 = op)
    (hres : ReservesField op lo n) (hw : w.extractLsb' lo n ≠ 0) : decode w = .reservedBits := by
  obtain ⟨r, hr, hrop, hmask, hzero⟩ := hres
  have hopcode : opcode w = r.op := BitVec.eq_of_toNat_eq (by rw [opcode_toNat, hop, hrop])
  exact decode_of_mismatch hr hopcode fun hmatch => hw ((extractLsb'_of_match hmatch hmask).trans hzero)

theorem formatN_reserves : ∀ op ∈ [0x00, 0x01, 0x02, 0x11, 0x15], ReservesField op 0 24 := by
  unfold ReservesField; decide

theorem formatB_reserves : ∀ op ∈ [0x10, 0x12, 0x13, 0x14, 0x21, 0x22, 0x23], ReservesField op 8 16 := by
  unfold ReservesField; decide

theorem formatBB_reserves : ReservesField 0x20 16 8 := by unfold ReservesField; decide

theorem formatF_reserves : ReservesField 0x30 10 14 ∧ ReservesField 0x30 3 5 := by unfold ReservesField; decide

theorem formatV_reserves : ReservesField 0x31 6 18 := by unfold ReservesField; decide

/-- No row has an opcode in the ranges R44 calls illegal. -/
theorem opTable_op_not_illegal : ∀ r ∈ opTable,
    ¬ ((0x03 ≤ r.op.toNat ∧ r.op.toNat ≤ 0x0F) ∨ (0x16 ≤ r.op.toNat ∧ r.op.toNat ≤ 0x1F) ∨
      (0x24 ≤ r.op.toNat ∧ r.op.toNat ≤ 0x2F) ∨ (0x32 ≤ r.op.toNat ∧ r.op.toNat ≤ 0xFF)) := by decide

end Sys2Proof

namespace Sys2Proof.Machine

open Sys2Proof.Safety

/-! ## A step on a CMD write (R27, R43) -/

/-- Out of reset, a write to CMD runs its word. -/
theorem step_cmd_write {s : State} {w : Word} {rest : List HostEvent} (hr : s.inReset = false)
    (hp : s.pending = .write 0x0 32 w :: rest) : step s = runCommand w { s with pending := rest } :=
  step_write_admitted hr rfl hp

theorem runCommand_of_command {w : Word} {i : Instr} (h : decode w = .command i) (s : State) :
    runCommand w s = exec i s := by
  simp only [runCommand, h]

theorem runCommand_of_illegalOpcode {w : Word} (h : decode w = .illegalOpcode) (s : State) :
    runCommand w s = .next (recorded 1 s) := by
  simp only [runCommand, h, failWith, raiseErr_eq_recorded, numberOf]

theorem runCommand_of_reservedBits {w : Word} (h : decode w = .reservedBits) (s : State) :
    runCommand w s = .next (recorded 2 s) := by
  simp only [runCommand, h, failWith, raiseErr_eq_recorded, numberOf]

end Sys2Proof.Machine

namespace Sys2Proof.Proofs

open Sys2Proof Sys2Proof.Machine Sys2Proof.Safety

/-- Settles O4: a command comes from a row the word matches, and a mnemonic stands in one row. -/
theorem wordIsRowCommandExactlyWhenItMatches : Obligations.WordIsRowCommandExactlyWhenItMatches := by
  refine ⟨?rowsCommand, opTable_has_mnemonic, fun w => decode_eq_illegalOpcode_iff.symm⟩
  case rowsCommand =>
    intro w r hr
    constructor
    · rintro ⟨i, hdec, hi⟩
      obtain ⟨q, hq, hmatch, rfl⟩ := decode_eq_command_iff.1 hdec
      rw [instrOf_mnemonic] at hi
      exact opTable_mnemonic_unique q hq r hr hi ▸ hmatch
    · intro hmatch
      exact ⟨_, decode_of_match hr hmatch, instrOf_mnemonic r.mnemonic w⟩

/-- Settles O5: a decoded command is `instrOf` of its row, whose operands are the fields, and every command is the
decoding of its own word. -/
theorem operandsAreTheFieldBits : Obligations.OperandsAreTheFieldBits := by
  refine ⟨?operands, fun i => ⟨encode i, decode_encode i⟩⟩
  case operands =>
    intro w i hdec
    obtain ⟨r, _, _, rfl⟩ := decode_eq_command_iff.1 hdec
    cases r.mnemonic with
    | nop | srst | clrerr | rsClr | rsRdcfg => trivial
    | rsCfg | rsFeed | rsRdpar | rsRdgen | gfExp | gfLog | gfInv => exact fieldLow_toNat w
    | gfMul => exact ⟨fieldHigh_toNat w, fieldLow_toNat w⟩
    | bchFmt => exact ⟨fieldEcl_toNat w, fieldMask_toNat w⟩
    | bchVer => exact fieldVer_toNat w

/-- Settles O6: the step runs the word, and each case of R43 decides what decoding answers. -/
theorem commandWriteIsOneOfThreeCases : Obligations.CommandWriteIsOneOfThreeCases := by
  refine ⟨?cases, fun w r hr q hq => row_eq_of_match hr hq⟩
  case cases =>
    intro s w rest hr hp
    rw [step_cmd_write hr hp]
    refine ⟨?unlisted, ?mismatch, ?command⟩
    case unlisted =>
      intro hop
      exact runCommand_of_illegalOpcode (decode_eq_illegalOpcode_iff.2 hop) _
    case mismatch =>
      intro r hrow hop hmask
      exact runCommand_of_reservedBits (decode_of_mismatch hrow hop.symm hmask) _
    case command =>
      intro r hrow hmatch
      exact runCommand_of_command (decode_of_match hrow hmatch) _

/-- Settles O7: no row has an opcode of the illegal ranges, and each format's row reserves the bits that R40 does not
give to a field. -/
theorem illegalAndReservedEncodingsRecordAndDoNothingElse :
    Obligations.IllegalAndReservedEncodingsRecordAndDoNothingElse := by
  intro s w rest hr hp
  rw [step_cmd_write hr hp]
  refine ⟨?illegal, ?reserved⟩
  case illegal =>
    intro op hop
    refine runCommand_of_illegalOpcode (decode_eq_illegalOpcode_iff.2 fun r hrow hrop => ?_) _
    have hnat : r.op.toNat = op := by rw [hrop, opcode_toNat]
    exact opTable_op_not_illegal r hrow (hnat ▸ hop)
  case reserved =>
    intro op hop
    refine runCommand_of_reservedBits ?_ _
    rcases hop with ⟨hop, hw⟩ | ⟨hop, hw⟩ | ⟨hop, hw⟩ | ⟨hop, hw | hw⟩ | ⟨hop, hw⟩
    · exact decode_of_reserved_field rfl (formatN_reserves op hop) hw
    · exact decode_of_reserved_field rfl (formatB_reserves op hop) hw
    · exact decode_of_reserved_field hop formatBB_reserves hw
    · exact decode_of_reserved_field hop formatF_reserves.1 hw
    · exact decode_of_reserved_field hop formatF_reserves.2 hw
    · exact decode_of_reserved_field hop formatV_reserves hw

end Sys2Proof.Proofs
end

section
/-! Proofs of the control commands' statements (spec/40_control.md): what the three commands do, what a format N
opcode leaves besides its one word, and a state that every command but NOP changes. -/

namespace Sys2Proof

/-! ## Format N: one word for each opcode (R40, R46) -/

/-- Under a format N opcode every word but the row's own is the second case of R43. -/
theorem decode_of_formatN_ne {w : Word} {r : OpRow} (hr : r ∈ opTable) (hmask : r.mask = 0xFFFFFFFF)
    (hop : opcode w = r.op) (hw : w ≠ r.matchBits) : decode w = .reservedBits := by
  refine decode_of_mismatch hr hop fun hmatch => hw ?_
  rw [hmask] at hmatch
  exact BitVec.and_allOnes.symm.trans hmatch

/-- A command is read only from a word of the row with its mnemonic. -/
theorem match_of_decode_command {w : Word} {i : Instr} {r : OpRow} (hr : r ∈ opTable)
    (hm : r.mnemonic = i.mnemonic) (hdec : decode w = .command i) : w &&& r.mask = r.matchBits := by
  obtain ⟨q, hq, hmatch, rfl⟩ := decode_eq_command_iff.1 hdec
  rw [instrOf_mnemonic] at hm
  exact opTable_mnemonic_unique r hr q hq hm ▸ hmatch

/-- The row of NOP (R42). -/
theorem nopRow_mem : (⟨0x00, .nop, 0x00000000, 0xFFFFFFFF⟩ : OpRow) ∈ opTable := by decide

/-- The row of CLRERR (R42). -/
theorem clrerrRow_mem : (⟨0x02, .clrerr, 0x02000000, 0xFFFFFFFF⟩ : OpRow) ∈ opTable := by decide

end Sys2Proof

namespace Sys2Proof.Machine

open Sys2Proof.Safety

/-! ## The control commands (R49 to R51) -/

theorem exec_nop (s : State) : exec .nop s = .next s := rfl
theorem exec_srst (s : State) : exec .srst s = .next (resetRegs s) := rfl
theorem exec_clrerr (s : State) : exec .clrerr s = .next (clearErr s) := rfl

/-- The reset state is already reset. -/
theorem resetRegs_reset : resetRegs State.reset = State.reset := rfl

/-- With no record there is nothing to clear. -/
theorem clearErr_of_no_record {s : State} (herr : s.err = false) (hcode : s.ecode = 0) : clearErr s = s := by
  simp only [clearErr, ← herr, ← hcode]

/-- The record of R85, by whether one is held already. -/
theorem recorded_eq (n : BitVec 4) (s : State) :
    recorded n s = if s.err then s else { s with err := true, ecode := n } := by
  cases herr : s.err <;> simp [recorded, herr]

/-! ## A state that shows every command but NOP (R49) -/

/-- A value widened to a word leaves bit 31 at 0. -/
theorem msb_setWidth_word {n : Nat} (hn : n < 32) (x : BitVec n) : (x.setWidth 32).msb = false := by
  rw [BitVec.msb_setWidth]; exact BitVec.getLsbD_of_ge x 31 (by omega)

theorem cfgWord_msb (s : State) : s.cfgWord.msb = false := by
  calc s.cfgWord.msb
    _ = (0#16 ++ s.cnt).msb := BitVec.msb_append
    _ = (0#16).msb := BitVec.msb_append
    _ = false := rfl

/-- A command that returns a result records an error or leaves RES below 2^31: no result is wider than the 24 bits of
RS_RDCFG (R20, R71, R80, R81). -/
theorem exec_result_cases {i : Instr} (s : State)
    (hi : i.mnemonic ∈ [.rsRdpar, .rsRdgen, .rsRdcfg, .gfMul, .gfExp, .gfLog, .gfInv, .bchFmt, .bchVer]) :
    (∃ c, exec i s = .next (raiseErr c s)) ∨ (∃ v : Word, v.msb = false ∧ exec i s = .next (s.setRes v)) := by
  have hbyte : ∀ b : Byte, (zext32 b).msb = false := msb_setWidth_word (by decide)
  have hbch : ∀ x : BitVec 18, (x.setWidth 32).msb = false := msb_setWidth_word (by decide)
  have hread : ∀ (f : RegFile) (a : BitVec 8), (∃ c, readEntry f a s = .next (raiseErr c s)) ∨
      (∃ v : Word, v.msb = false ∧ readEntry f a s = .next (s.setRes v)) := by
    intro f a
    rcases readEntry_cases f a s with ⟨_, h⟩ | ⟨_, _, h⟩ | ⟨_, _, _, h⟩
    · exact .inl ⟨_, h⟩
    · exact .inl ⟨_, h⟩
    · exact .inr ⟨_, hbyte _, h⟩
  cases i with
  | nop | srst | clrerr | rsCfg | rsClr | rsFeed => simp [Instr.mnemonic] at hi
  | rsRdpar a => exact hread s.par a
  | rsRdgen a => exact hread s.gen a
  | rsRdcfg => exact .inr ⟨_, cfgWord_msb s, rfl⟩
  | gfMul a b => exact .inr ⟨_, hbyte _, rfl⟩
  | gfExp a => exact .inr ⟨_, hbyte _, rfl⟩
  | gfLog a =>
    rcases execGfLog_cases a s with ⟨_, h⟩ | ⟨_, _, h⟩
    · exact .inl ⟨_, h⟩
    · exact .inr ⟨_, hbyte _, h⟩
  | gfInv a =>
    rcases execGfInv_cases a s with ⟨_, h⟩ | ⟨_, _, h⟩
    · exact .inl ⟨_, h⟩
    · exact .inr ⟨_, hbyte _, h⟩
  | bchFmt ecl mask => exact .inr ⟨_, hbch _, rfl⟩
  | bchVer ver =>
    rcases execBchVer_cases ver s with ⟨_, h⟩ | ⟨_, _, h⟩
    · exact .inl ⟨_, h⟩
    · exact .inr ⟨_, hbch _, h⟩

/-- A state in which each effect shows: ERR is 0, so an error is recorded; ECODE is not 0, so a clearing shows; CNT is
not 0, so a new block shows; E is 0, so no feed is taken; and RES holds a word that no command returns. No run reaches
it, but R49 speaks of any state. -/
def showsEveryEffect : State := { State.reset with cnt := 1, res := 0x80000000, ecode := 1 }

/-- Every command but NOP changes that state. -/
theorem eq_nop_of_exec_showsEveryEffect {i : Instr} (h : exec i showsEveryEffect = .next showsEveryEffect) :
    i = .nop := by
  have unchanged : ∀ {t : State}, exec i showsEveryEffect = .next t → t = showsEveryEffect :=
    fun ht => Host.Outcome.next.inj (ht.symm.trans h)
  have noRecord : ∀ c, exec i showsEveryEffect ≠ .next (raiseErr c showsEveryEffect) := by
    intro c hc
    have herr := congrArg State.err (unchanged hc)
    rw [raiseErr_err] at herr
    cases herr
  have cntKept : ∀ {t : State}, exec i showsEveryEffect = .next t → t.cnt ≠ 0 := by
    intro t ht
    rw [unchanged ht]
    decide
  rcases exec_cases i showsEveryEffect with ⟨c, hc⟩ | ⟨_, hnop⟩ | ⟨hreset, _⟩ | ⟨hclear, _⟩ | ⟨hblock, _⟩ |
    ⟨_, _, _, _, hcfg⟩ | ⟨_, _, he, _⟩ | ⟨_, _, hi⟩
  · exact absurd hc (noRecord c)
  · exact hnop
  · exact absurd rfl (cntKept hreset)
  · exact absurd (congrArg State.ecode (unchanged hclear)) (by decide)
  · exact absurd rfl (cntKept hblock)
  · exact absurd rfl (cntKept hcfg)
  · exact absurd rfl he
  · rcases exec_result_cases showsEveryEffect hi with ⟨c, hc⟩ | ⟨v, hv, hres⟩
    · exact absurd hc (noRecord c)
    · have hword : v = 0x80000000 := congrArg State.res (unchanged hres)
      rw [hword] at hv
      exact absurd hv (by decide)

end Sys2Proof.Machine

namespace Sys2Proof.Proofs

open Sys2Proof Sys2Proof.Machine Sys2Proof.Safety

/-- Settles O15: NOP's row matches one word only, and one state shows the effect of every other command. -/
theorem nopDoesNothingAndNothingElseDoes : Obligations.NopDoesNothingAndNothingElseDoes := by
  refine ⟨exec_nop, ?onlyWord, ?otherWords, fun _ h => eq_nop_of_exec_showsEveryEffect (h showsEveryEffect)⟩
  case onlyWord =>
    intro w
    constructor
    · intro hdec
      exact BitVec.and_allOnes.symm.trans (match_of_decode_command nopRow_mem rfl hdec)
    · rintro rfl
      exact decode_encode .nop
  case otherWords =>
    intro w hop hw
    exact decode_of_formatN_ne nopRow_mem rfl hop hw

/-- Settles O16: SRST is `resetRegs`, which the reset state is a fixed point of. -/
theorem srstGivesTheResetState : Obligations.SrstGivesTheResetState := by
  refine ⟨decode_encode .srst, exec_srst, ?inReset⟩
  case inReset => rw [exec_srst, resetRegs_reset]

/-- Settles O17: CLRERR is `clearErr`, and a malformed word is not decoded to it but recorded as RESERVED_BITS. -/
theorem clrerrClearsTheRecordOnly : Obligations.ClrerrClearsTheRecordOnly := by
  refine ⟨decode_encode .clrerr, exec_clrerr, ?noRecord, ?malformed⟩
  case noRecord =>
    intro s herr hcode
    rw [exec_clrerr, clearErr_of_no_record herr hcode]
  case malformed =>
    intro s w rest hr hp hop hw
    have hdec : decode w = .reservedBits := decode_of_formatN_ne clrerrRow_mem rfl hop hw
    rw [step_cmd_write hr hp, runCommand_of_reservedBits hdec, recorded_eq]

end Sys2Proof.Proofs
end

section
/-! Proofs of the field commands' statements (spec/41_gf_arith.md): multiplication by α commutes with the product, so
the powers of α multiply by adding exponents; α has order 255, so its powers are all the elements but 0; the product,
the logarithm and the inverse are then read off the exponents. -/

namespace Sys2Proof.Machine

open Function

/-! ## Multiplication by α and the product loop (R54, R55) -/

/-- A doubling step sees only the low 8 bits. -/
theorem shiftReduce_of_low_bits (t : BitVec 9) : shiftReduce ((t.setWidth 8).setWidth 9) = shiftReduce t := by
  have hshift : (t.setWidth 8).setWidth 9 <<< 1 = t <<< 1 := by
    ext i hi
    have hlow : i - 1 < 8 := by omega
    simp [hlow, BitVec.getLsbD_eq_getElem (show i - 1 < 9 by omega)]
  rw [shiftReduce_eq, shiftReduce_eq t, hshift]

/-- A doubling step ends reduced: bit 8 is 0. -/
theorem shiftReduce_getLsbD_eight (t : BitVec 9) : (shiftReduce t).getLsbD 8 = false := by
  simp only [shiftReduce]
  split
  next h => rw [BitVec.getLsbD_xor, h]; rfl
  next h => simpa using h

/-- A reduced value loses nothing as a field element. -/
theorem setWidth_shiftReduce (t : BitVec 9) : ((shiftReduce t).setWidth 8).setWidth 9 = shiftReduce t := by
  refine BitVec.eq_of_getLsbD_eq fun i hi => ?_
  rw [BitVec.getLsbD_setWidth, BitVec.getLsbD_setWidth]
  rcases Nat.lt_succ_iff_lt_or_eq.1 hi with hlow | rfl
  · simp [hlow, hi]
  · rw [shiftReduce_getLsbD_eight]; rfl

theorem timesAlpha_setWidth (t : BitVec 9) : timesAlpha (t.setWidth 8) = (shiftReduce t).setWidth 8 :=
  congrArg (BitVec.setWidth 8) (shiftReduce_of_low_bits t)

theorem setWidth_timesAlpha (a : Elem) : (timesAlpha a).setWidth 9 = shiftReduce (a.setWidth 9) :=
  setWidth_shiftReduce (a.setWidth 9)

theorem timesAlpha_zero : timesAlpha 0 = 0 := rfl

theorem timesAlpha_gfAdd (a b : Elem) : timesAlpha (gfAdd a b) = gfAdd (timesAlpha a) (timesAlpha b) := by
  simp only [timesAlpha, gfAdd, BitVec.setWidth_xor, shiftReduce_xor]

/-- The product loop commutes with multiplication by α, which is linear. -/
theorem gfMulLoop_timesAlpha (b : Elem) (js : List Nat) (t : BitVec 9) (r : Elem) :
    gfMulLoop b js (shiftReduce t) (timesAlpha r) = timesAlpha (gfMulLoop b js t r) := by
  induction js generalizing t r with
  | nil => rfl
  | cons j js ih =>
    rw [gfMulLoop_cons, gfMulLoop_cons, ← ih, apply_ite timesAlpha, timesAlpha_gfAdd, timesAlpha_setWidth]

theorem gfMul_timesAlpha (a b : Elem) : gfMul (timesAlpha a) b = timesAlpha (gfMul a b) := by
  rw [gfMul, setWidth_timesAlpha]
  exact gfMulLoop_timesAlpha b (List.range 8) (a.setWidth 9) 0

theorem gfMul_one_left (b : Elem) : gfMul 1 b = b := by revert b; decide

/-- The product loop adds nothing for a second factor of 0, which has no bit set. -/
theorem gfMulLoop_zero_right (js : List Nat) (t : BitVec 9) (r : Elem) : gfMulLoop 0 js t r = r := by
  induction js generalizing t with
  | nil => rfl
  | cons j js ih =>
    have hbit : (0 : Elem).getLsbD j = false := BitVec.getLsbD_zero
    rw [gfMulLoop_cons, hbit]
    exact ih _

theorem gfMul_zero_right (a : Elem) : gfMul a 0 = 0 := gfMulLoop_zero_right (List.range 8) (a.setWidth 9) 0

/-- The product loop adds nothing for a first factor of 0. -/
theorem gfMulLoop_zero_left (b : Elem) (js : List Nat) (r : Elem) : gfMulLoop b js 0 r = r := by
  induction js generalizing r with
  | nil => rfl
  | cons j js ih =>
    have hterm : gfAdd r ((0 : BitVec 9).setWidth 8) = r := gfAdd_zero r
    rw [gfMulLoop_cons, hterm, ite_self]
    exact ih r

theorem gfMul_zero_left (b : Elem) : gfMul 0 b = 0 := gfMulLoop_zero_left b (List.range 8) 0

/-! ## The powers of α (R55) -/

/-- Powers of α multiply by adding their exponents. -/
theorem gfExpTable_add (i j : Nat) : gfExpTable (i + j) = gfMul (gfExpTable i) (gfExpTable j) := by
  induction i with
  | zero => rw [Nat.zero_add]; exact (gfMul_one_left _).symm
  | succ i ih => rw [Nat.succ_add, gfExpTable_succ, ih, gfExpTable_succ, gfMul_timesAlpha]

theorem gfExpTable_eq_iterate (i : Nat) : gfExpTable i = timesAlpha^[i] 1 := by
  induction i with
  | zero => rfl
  | succ i ih => rw [gfExpTable_succ, ih, iterate_succ_apply']

theorem isPeriodicPt_timesAlpha_iff (i : Nat) : IsPeriodicPt timesAlpha i 1 ↔ gfExpTable i = 1 := by
  rw [gfExpTable_eq_iterate]; rfl

theorem gfExpTable_255 : gfExpTable 255 = 1 := by decide +kernel

/-- α has order 255: its powers at 255 / 3, 255 / 5 and 255 / 17 are not 1. -/
theorem minimalPeriod_timesAlpha : minimalPeriod timesAlpha 1 = 255 := by
  have hdvd : minimalPeriod timesAlpha 1 ∣ 255 :=
    IsPeriodicPt.minimalPeriod_dvd ((isPeriodicPt_timesAlpha_iff 255).2 gfExpTable_255)
  have hdivisors : ∀ d ∈ Nat.divisors 255, d = 255 ∨ ∃ n ∈ [85, 51, 15], d ∣ n := by decide
  have hpowers : ∀ n ∈ [85, 51, 15], gfExpTable n ≠ 1 := by decide +kernel
  rcases hdivisors _ (Nat.mem_divisors.2 ⟨hdvd, by decide⟩) with h | ⟨n, hn, hdvdn⟩
  · exact h
  · have hone : gfExpTable n = 1 := (isPeriodicPt_timesAlpha_iff n).1 (isPeriodicPt_iff_minimalPeriod_dvd.2 hdvdn)
    exact absurd hone (hpowers n hn)

theorem gfExpTable_mod (i : Nat) : gfExpTable (i % 255) = gfExpTable i := by
  rw [gfExpTable_eq_iterate, gfExpTable_eq_iterate, ← minimalPeriod_timesAlpha, iterate_mod_minimalPeriod_eq]

theorem gfExpTable_congr {i j : Nat} (h : i % 255 = j % 255) : gfExpTable i = gfExpTable j := by
  rw [← gfExpTable_mod, h, gfExpTable_mod]

theorem alphaPow_eq_gfExpTable (i : Nat) : alphaPow i = gfExpTable i := gfExpTable_mod i

/-- The 255 entries of the table are distinct. -/
theorem gfExpTable_injOn : Set.InjOn gfExpTable (Set.Iio 255) := by
  intro i hi j hj h
  rw [gfExpTable_eq_iterate, gfExpTable_eq_iterate] at h
  rw [← minimalPeriod_timesAlpha] at hi hj
  exact iterate_injOn_Iio_minimalPeriod hi hj h

/-- No power of α is 0: its 255th power is a multiple of it. -/
theorem gfExpTable_ne_zero (i : Nat) : gfExpTable i ≠ 0 := by
  intro h
  have hone : gfExpTable (i + 254 * i) = 1 := gfExpTable_congr (i := i + 254 * i) (j := 0) (by omega)
  rw [gfExpTable_add, h, gfMul_zero_left] at hone
  exact absurd hone (by decide)

theorem card_elem : Fintype.card Elem = 256 := FinEnum.card_eq_fintypeCard.symm.trans (FinEnum.card_bitVec 8)

/-- Every element but 0 is a power of α: the table has as many entries as there are such elements. -/
theorem exists_gfExpTable_eq {a : Elem} (ha : a ≠ 0) : ∃ l < 255, gfExpTable l = a := by
  have hsurj : Set.SurjOn gfExpTable (Finset.range 255) ((Finset.univ : Finset Elem).erase 0) := by
    refine Finset.surjOn_of_injOn_of_card_le gfExpTable (fun i _ => by simpa using gfExpTable_ne_zero i) ?_ ?_
    · rw [Finset.coe_range]; exact gfExpTable_injOn
    · rw [Finset.card_erase_of_mem (Finset.mem_univ _), Finset.card_univ, card_elem, Finset.card_range]
  obtain ⟨l, hl, hla⟩ := hsurj (by simpa using ha)
  exact ⟨l, by simpa using hl, hla⟩

/-! ## Product, logarithm and inverse by exponents (R56, R57) -/

theorem gfMul_comm (a b : Elem) : gfMul a b = gfMul b a := by
  by_cases ha : a = 0
  · rw [ha, gfMul_zero_left, gfMul_zero_right]
  · by_cases hb : b = 0
    · rw [hb, gfMul_zero_left, gfMul_zero_right]
    · obtain ⟨l, _, rfl⟩ := exists_gfExpTable_eq ha
      obtain ⟨m, _, rfl⟩ := exists_gfExpTable_eq hb
      rw [← gfExpTable_add, ← gfExpTable_add, Nat.add_comm]

theorem gfLog?_gfExpTable (i : Nat) : gfLog? (gfExpTable i) = some (i % 255) := by
  have hlt : i % 255 < 255 := Nat.mod_lt i (by decide)
  cases h : gfLog? (gfExpTable i) with
  | none => exact absurd (gfExpTable_mod i) (by simpa using List.find?_eq_none.1 h _ (List.mem_range.2 hlt))
  | some l =>
    obtain ⟨hl, hli⟩ := gfLog?_some h
    rw [gfExpTable_injOn hl hlt (hli.trans (gfExpTable_mod i).symm)]

theorem gfLog?_zero : gfLog? 0 = none := by
  cases h : gfLog? 0 with
  | none => rfl
  | some l => exact absurd (gfLog?_some h).2 (gfExpTable_ne_zero l)

theorem gfInv?_gfExpTable (i : Nat) : gfInv? (gfExpTable i) = some (gfExpTable (255 - i % 255)) := by
  rw [gfInv?, gfLog?_gfExpTable, Option.map_some, alphaPow_eq_gfExpTable]

theorem gfInv?_zero : gfInv? 0 = none := by rw [gfInv?, gfLog?_zero, Option.map_none]

/-- An element other than 0 has an inverse, whose own inverse is that element (R57). -/
theorem exists_gfInv? {a : Elem} (ha : a ≠ 0) : ∃ v, gfInv? a = some v ∧ gfMul a v = 1 ∧ gfInv? v = some a := by
  obtain ⟨l, hl, rfl⟩ := exists_gfExpTable_eq ha
  refine ⟨_, gfInv?_gfExpTable l, ?product, ?inverse⟩
  case product => rw [← gfExpTable_add]; exact gfExpTable_congr (j := 0) (by omega)
  case inverse => rw [gfInv?_gfExpTable]; exact congrArg some (gfExpTable_congr (by omega))

/-! ## The field commands (R58 to R61) -/

theorem exec_gfMul (a b : BitVec 8) (s : State) : exec (.gfMul a b) s = .next (s.setRes (zext32 (gfMul a b))) := rfl

theorem exec_gfExp (a : BitVec 8) (s : State) :
    exec (.gfExp a) s = .next (s.setRes (zext32 (gfExpTable (a.toNat % 255)))) := rfl

theorem exec_gfLog_of_some {a : Elem} {l : Nat} (h : gfLog? a = some l) (s : State) :
    exec (.gfLog a) s = .next (s.setRes (BitVec.ofNat 32 l)) := by
  have hword : zext32 (BitVec.ofNat 8 l) = BitVec.ofNat 32 l :=
    BitVec.setWidth_ofNat_of_le_of_lt (by decide) ((gfLog?_some h).1.trans (by decide))
  rw [← hword]
  rcases execGfLog_cases a s with ⟨hnone, _⟩ | ⟨_, hsome, hexec⟩
  · cases h.symm.trans hnone
  · cases h.symm.trans hsome; exact hexec

theorem exec_gfLog_zero (s : State) : exec (.gfLog 0) s = .next (raiseErr .domain s) := by
  rcases execGfLog_cases 0 s with ⟨_, hexec⟩ | ⟨_, hsome, _⟩
  · exact hexec
  · cases gfLog?_zero.symm.trans hsome

theorem exec_gfInv_of_some {a v : Elem} (h : gfInv? a = some v) (s : State) :
    exec (.gfInv a) s = .next (s.setRes (zext32 v)) := by
  rcases execGfInv_cases a s with ⟨hnone, _⟩ | ⟨_, hsome, hexec⟩
  · cases h.symm.trans hnone
  · cases h.symm.trans hsome; exact hexec

theorem exec_gfInv_zero (s : State) : exec (.gfInv 0) s = .next (raiseErr .domain s) := by
  rcases execGfInv_cases 0 s with ⟨_, hexec⟩ | ⟨_, hsome, _⟩
  · exact hexec
  · cases gfInv?_zero.symm.trans hsome

theorem zext32_ne_zero {v : Byte} (h : v ≠ 0) : zext32 v ≠ 0 := by
  intro hzero
  have hlow : (zext32 v).setWidth 8 = v := (BitVec.setWidth_setWidth_of_le v (by decide)).trans (BitVec.setWidth_eq v)
  rw [hzero] at hlow
  exact h hlow.symm

end Sys2Proof.Machine

namespace Sys2Proof.Proofs

open Sys2Proof Sys2Proof.Machine Sys2Proof.Safety

/-- Settles O23: the corner cases and the exchange of operands are laws of the product, which the powers of α give. -/
theorem gfMulReturnsTheProduct : Obligations.GfMulReturnsTheProduct := by
  refine ⟨fun a b => decode_encode (.gfMul a b), exec_gfMul, ?corners, ?exchange, ?highBits, ?sample⟩
  case corners => exact fun b => ⟨gfMul_zero_left b, gfMul_zero_right b, gfMul_one_left b⟩
  case exchange =>
    intro a b s
    rw [exec_gfMul, exec_gfMul, gfMul_comm]
  case highBits =>
    intro a b
    ext i
    simp
  case sample =>
    intro s
    have hproduct : gfMul 0x80 0x02 = 0x1D := by decide
    rw [exec_gfMul, hproduct]
    rfl

/-- Settles O24: the command reads the table at the reduced exponent, and no power of α is 0. -/
theorem gfExpReturnsThePower : Obligations.GfExpReturnsThePower := by
  refine ⟨fun a => decode_encode (.gfExp a), exec_gfExp, fun s => ⟨rfl, rfl⟩, ?neverZero, ?sample⟩
  case neverZero =>
    intro a s t ht
    obtain rfl := Host.Outcome.next.inj ((exec_gfExp a s).symm.trans ht)
    exact zext32_ne_zero (gfExpTable_ne_zero _)
  case sample =>
    intro s
    have hpower : gfExpTable 8 = 0x1D := by decide
    rw [exec_gfExp, show (8 : BitVec 8).toNat % 255 = 8 from rfl, hpower]
    rfl

/-- Settles O25: an operand other than 0 is a power of α below 255, whose exponent is its logarithm. -/
theorem gfLogReturnsTheLogarithm : Obligations.GfLogReturnsTheLogarithm := by
  refine ⟨fun a => decode_encode (.gfLog a), ?atZero, ?logarithm, ?one, ?sample⟩
  case atZero =>
    exact fun s => (exec_gfLog_zero s).trans (congrArg Host.Outcome.next (raiseErr_eq_recorded .domain s))
  case logarithm =>
    intro a s ha
    obtain ⟨l, hl, rfl⟩ := exists_gfExpTable_eq ha
    have hlog : gfLog? (gfExpTable l) = some l := by rw [gfLog?_gfExpTable, Nat.mod_eq_of_lt hl]
    have hindex : (BitVec.ofNat 8 l).toNat % 255 = l := by rw [BitVec.toNat_ofNat]; omega
    refine ⟨l, by omega, hlog, rfl, exec_gfLog_of_some hlog s, ?_⟩
    rw [exec_gfExp, hindex]
    rfl
  case one => exact exec_gfLog_of_some (gfLog?_gfExpTable 0)
  case sample =>
    have hpower : gfExpTable 175 = 0xFF := by decide +kernel
    exact exec_gfLog_of_some (hpower ▸ gfLog?_gfExpTable 175)

/-- Settles O26: an operand other than 0 has an inverse, whose inverse is the operand. -/
theorem gfInvReturnsTheInverse : Obligations.GfInvReturnsTheInverse := by
  refine ⟨fun a => decode_encode (.gfInv a), ?atZero, ?inverse, ?one, ?sample⟩
  case atZero =>
    exact fun s => (exec_gfInv_zero s).trans (congrArg Host.Outcome.next (raiseErr_eq_recorded .domain s))
  case inverse =>
    intro a s ha
    obtain ⟨v, hav, hproduct, hva⟩ := exists_gfInv? ha
    exact ⟨v, hav, hproduct, exec_gfInv_of_some hav s, exec_gfInv_of_some hva s⟩
  case one =>
    have hinv : gfInv? 1 = some 1 := (gfInv?_gfExpTable 0).trans (congrArg some gfExpTable_255)
    exact exec_gfInv_of_some hinv
  case sample =>
    have hpower : gfExpTable 254 = 0x8E := by decide +kernel
    have hinv : gfInv? 0x02 = some 0x8E := (gfInv?_gfExpTable 1).trans (congrArg some hpower)
    exact exec_gfInv_of_some hinv

end Sys2Proof.Proofs
end

section
/-! Proofs of the Reed–Solomon commands' statements (spec/42_reed_solomon.md): what each command answers in each case of
its rule, the entries of PAR after a feed, the words that show E and CNT, and the statements read off them. -/

namespace Sys2Proof.Machine

open Sys2Proof.Safety

/-- An outcome that takes an error is one with the record of R83 and R85. -/
theorem eq_next_recorded_of_raiseErr {o : Host.Outcome State Fault Refusal} {c : ErrorCode} {s : State}
    (h : o = .next (raiseErr c s)) : o = .next (recorded (numberOf c) s) := by
  rw [h, raiseErr_eq_recorded]

/-! ## STAT.CFG and the word of RS_RDCFG (R21, R71) -/

theorem statWord_getLsbD_one (s : State) : s.statWord.getLsbD 1 = s.cfg := by
  rw [State.statWord, BitVec.getLsbD_append, BitVec.getLsbD_append]
  simp

/-- The word of RS_RDCFG as a number: E below CNT. -/
theorem cfgWord_toNat (s : State) : s.cfgWord.toNat = s.e.val + 256 * s.cnt.toNat := by
  have he : s.e.val < 2 ^ 8 := s.e.isLt.trans (by decide)
  rw [State.cfgWord, BitVec.toNat_append, BitVec.toNat_ofNat, Nat.mod_eq_of_lt he,
    ← Nat.shiftLeft_add_eq_or_of_lt he, BitVec.toNat_append, BitVec.toNat_zero, Nat.zero_shiftLeft, Nat.zero_or,
    Nat.shiftLeft_eq]
  omega

/-! ## RS_CFG and RS_CLR (R66, R67) -/

theorem exec_rsCfg_of_illegal {a : BitVec 8} (h : a.toNat = 0 ∨ 30 < a.toNat) (s : State) :
    exec (.rsCfg a) s = .next (recorded 3 s) := by
  rcases execRsCfg_cases a s with ⟨_, hexec⟩ | ⟨_, _, _⟩
  · exact eq_next_recorded_of_raiseErr hexec
  · omega

theorem exec_rsCfg_of_legal {a : BitVec 8} (h1 : 1 ≤ a.toNat) (h30 : a.toNat ≤ 30) (s : State) :
    exec (.rsCfg a) s = .next (clearBlock { s with e := ⟨a.toNat, by omega⟩, gen := genFile a.toNat }) := by
  have hofNat : Fin.ofNat 31 a.toNat = ⟨a.toNat, by omega⟩ := Fin.ext (Nat.mod_eq_of_lt (by omega))
  rcases execRsCfg_cases a s with ⟨_, _⟩ | ⟨_, _, hexec⟩
  · omega
  · rw [← hofNat]; exact hexec

theorem exec_rsClr (s : State) : exec .rsClr s = .next (clearBlock s) := rfl

/-- With no E configured there is no block to drop: PAR and CNT are already 0. -/
theorem clearBlock_of_unconfigured {s : State} (hinv : Inv s) (he : s.e = 0) : clearBlock s = s := by
  have hpar : RegFile.zero = s.par := Vector.ext fun i hi => by
    rw [zero_getElem]
    exact (hinv.parAboveE ⟨i, hi⟩ (by rw [he]; exact Nat.zero_le i)).symm
  have hcnt : 0 = s.cnt := (hinv.uncountedUnconfigured he).symm
  rw [clearBlock, hpar, hcnt]

/-! ## RS_FEED (R68) -/

theorem exec_rsFeed_of_unconfigured {s : State} (he : s.e = 0) (a : BitVec 8) :
    exec (.rsFeed a) s = .next (recorded 4 s) := by
  rcases execRsFeed_cases a s with ⟨_, hexec⟩ | ⟨hne, _⟩ | ⟨hne, _⟩
  · exact eq_next_recorded_of_raiseErr hexec
  · exact absurd he hne
  · exact absurd he hne

theorem exec_rsFeed_of_full {s : State} (he : s.e ≠ 0) (hfull : 255 ≤ s.cnt.toNat + s.e.val) (a : BitVec 8) :
    exec (.rsFeed a) s = .next (recorded 6 s) := by
  rcases execRsFeed_cases a s with ⟨hzero, _⟩ | ⟨_, _, hexec⟩ | ⟨_, _, _⟩
  · exact absurd hzero he
  · exact eq_next_recorded_of_raiseErr hexec
  · omega

theorem exec_rsFeed_of_room {s : State} (he : s.e ≠ 0) (hroom : s.cnt.toNat + s.e.val < 255) (a : BitVec 8) :
    exec (.rsFeed a) s = .next { s with par := feedPar s.e s.par s.gen a, cnt := s.cnt + 1 } := by
  rcases execRsFeed_cases a s with ⟨hzero, _⟩ | ⟨_, _, _⟩ | ⟨_, _, hexec⟩
  · exact absurd hzero he
  · omega
  · exact hexec

/-- CNT counts a feed without wrapping: a block with room holds fewer than 255 codewords (R17). -/
theorem cnt_add_one_toNat {s : State} (hroom : s.cnt.toNat + s.e.val < 255) :
    (s.cnt + 1).toNat = s.cnt.toNat + 1 :=
  BitVec.toNat_add_of_lt (by change s.cnt.toNat + 1 < 2 ^ 8; omega)

theorem genFile_one_getElem_zero : (genFile 1)[0] = 1 := by decide

/-- The example of R68: the generator of E = 2 is [0x03, 0x02], and 0x12 is fed into a PAR of zeros. -/
theorem feedPar_example : (feedPar 2 (Vector.replicate 30 0) (genFile 2) 0x12)[0] = 0x36 ∧
    (feedPar 2 (Vector.replicate 30 0) (genFile 2) 0x12)[1] = 0x24 := by decide

section FeedPar

variable {e : Fin 31} {par gen : RegFile} {d : Elem}

/-- Below index E−1 an entry takes the one above it and the feedback. -/
theorem feedPar_shift {i j : Fin 30} (hij : j.val = i.val + 1) (hj : j.val < e.val) :
    (feedPar e par gen d)[i] = par[j] ^^^ gfMul (d ^^^ par[0]) gen[i] := by
  have hi : i.val + 1 < 30 := hij ▸ j.isLt
  obtain rfl : j = ⟨i.val + 1, hi⟩ := Fin.ext hij
  exact (feedPar_getElem e par gen d i i.isLt).trans (dif_pos hj)

/-- The entry at E−1 takes the feedback alone. -/
theorem feedPar_last {i : Fin 30} (hi : i.val + 1 = e.val) :
    (feedPar e par gen d)[i] = gfMul (d ^^^ par[0]) gen[i] :=
  calc (feedPar e par gen d)[i]
    _ = feedEntry e par gen (gfAdd d par[0]) i := feedPar_getElem e par gen d i i.isLt
    _ = gfMul (d ^^^ par[0]) gen[i] := by
      rw [feedEntry, dif_neg (by omega), if_pos hi]
      rfl

/-- A codeword equal to PAR[0] gives no feedback: PAR below E only shifts, and a 0 comes in. -/
theorem feedPar_of_no_feedback (hd : d = par[0]) :
    (∀ i j : Fin 30, j.val = i.val + 1 → j.val < e.val → (feedPar e par gen d)[i] = par[j]) ∧
    (∀ i : Fin 30, i.val + 1 = e.val → (feedPar e par gen d)[i] = 0) := by
  have hfb : d ^^^ par[0] = 0 := by rw [hd]; exact BitVec.xor_self
  constructor
  · intro i j hij hj
    rw [feedPar_shift hij hj, hfb, gfMul_zero_left]
    exact BitVec.xor_zero
  · intro i hi
    rw [feedPar_last hi, hfb, gfMul_zero_left]

/-- A 0 fed into a PAR of zeros changes nothing (R65: leading zeros). -/
theorem feedPar_zero (hd : d = 0) (hpar : ∀ i : Fin 30, par[i] = 0) : feedPar e par gen d = par := by
  obtain ⟨hshift, hlast⟩ := feedPar_of_no_feedback (e := e) (gen := gen) (hd.trans (hpar 0).symm)
  refine Vector.ext fun i hi => ?_
  rcases Nat.lt_trichotomy (i + 1) e.val with hlt | heq | hgt
  · have hj : i + 1 < 30 := by omega
    exact (hshift ⟨i, hi⟩ ⟨i + 1, hj⟩ rfl hlt).trans ((hpar ⟨i + 1, hj⟩).trans (hpar ⟨i, hi⟩).symm)
  · exact (hlast ⟨i, hi⟩ heq).trans (hpar ⟨i, hi⟩).symm
  · exact feedPar_above hi (by omega)

/-- With E = 1 the generator is x + 1, and PAR[0] is the exclusive-or of the codewords fed (R65). -/
theorem feedPar_one (he : e.val = 1) (hgen : gen = genFile e.val) : (feedPar e par gen d)[0] = d ^^^ par[0] := by
  calc (feedPar e par gen d)[0]
    _ = gfMul (d ^^^ par[0]) gen[0] := feedPar_last (i := 0) he.symm
    _ = d ^^^ par[0] := by rw [hgen, he, genFile_one_getElem_zero, gfMul_comm, gfMul_one_left]

end FeedPar

/-! ## The indexed reads (R69, R70) and RS_RDCFG (R71) -/

theorem readEntry_of_unconfigured {s : State} (he : s.e = 0) (f : RegFile) (a : BitVec 8) :
    readEntry f a s = .next (recorded 4 s) := by
  rcases readEntry_cases f a s with ⟨_, hread⟩ | ⟨hne, _⟩ | ⟨hne, _⟩
  · exact eq_next_recorded_of_raiseErr hread
  · exact absurd he hne
  · exact absurd he hne

theorem readEntry_of_ge {s : State} {a : BitVec 8} (he : s.e ≠ 0) (ha : s.e.val ≤ a.toNat) (f : RegFile) :
    readEntry f a s = .next (recorded 3 s) := by
  rcases readEntry_cases f a s with ⟨hzero, _⟩ | ⟨_, _, hread⟩ | ⟨_, _, _, _⟩
  · exact absurd hzero he
  · exact eq_next_recorded_of_raiseErr hread
  · omega

theorem readEntry_of_lt {s : State} {a : BitVec 8} {i : Fin 30} (ha : a.toNat = i.val) (hi : i.val < s.e.val)
    (f : RegFile) : readEntry f a s = .next (s.setRes (zext32 f[i])) := by
  have ha30 : a.toNat < 30 := ha ▸ i.isLt
  obtain rfl : i = ⟨a.toNat, ha30⟩ := Fin.ext ha.symm
  rcases readEntry_cases f a s with ⟨hzero, _⟩ | ⟨_, _, _⟩ | ⟨_, _, _, hread⟩
  · rw [hzero] at hi; exact absurd hi (Nat.not_lt_zero _)
  · omega
  · exact hread

theorem exec_rsRdpar (a : BitVec 8) (s : State) : exec (.rsRdpar a) s = readEntry s.par a s := rfl

theorem exec_rsRdcfg (s : State) : exec .rsRdcfg s = .next (s.setRes s.cfgWord) := rfl

theorem entriesBelow_getD (f : RegFile) {e : Fin 31} {i : Fin 30} (hi : i.val < e.val) :
    (entriesBelow f e).getD i.val 0 = f[i] := by
  simp [entriesBelow, hi]

end Sys2Proof.Machine

namespace Sys2Proof.Proofs

open Sys2Proof Sys2Proof.Machine Sys2Proof.Safety

/-- Settles O31: the operand is in the range of R66 or not, and GEN is `genFile`. -/
theorem rsCfgStartsABlock : Obligations.RsCfgStartsABlock := by
  refine ⟨fun a => decode_encode (.rsCfg a), fun a s h => exec_rsCfg_of_illegal h s, ?legal, ?sample⟩
  case legal =>
    intro a s h1 h30
    refine ⟨_, exec_rsCfg_of_legal h1 h30 s, rfl, rfl, ?cfg, fun i => genFile_getElem a.toNat i i.isLt⟩
    case cfg =>
      rw [statWord_getLsbD_one, cfg_iff, clearBlock_e]
      exact Fin.ne_of_val_ne (Nat.ne_of_gt h1)
  case sample => decide +kernel

/-- Settles O33: the command's three cases, and the entries of PAR below E−1, at E−1 and from E on. -/
theorem rsFeedShiftsOneCodewordIn : Obligations.RsFeedShiftsOneCodewordIn := by
  refine ⟨fun a => decode_encode (.rsFeed a), fun a s he => exec_rsFeed_of_unconfigured he a,
    fun a s he hfull => exec_rsFeed_of_full he hfull a, ?room, ?sample⟩
  case room =>
    intro a s he hroom
    exact ⟨_, exec_rsFeed_of_room he hroom a, rfl, cnt_add_one_toNat hroom, fun _ _ hij hj => feedPar_shift hij hj,
      fun _ hi => feedPar_last hi, fun i hi => feedPar_above i.isLt hi, fun hgen he1 => feedPar_one he1 hgen,
      feedPar_zero, feedPar_of_no_feedback⟩
  case sample =>
    intro s he hgen hpar hcnt
    have hne : s.e ≠ 0 := Fin.ne_of_val_ne (by rw [he]; decide)
    have hroom : s.cnt.toNat + s.e.val < 255 := by rw [hcnt, he]; decide
    have htwo : s.e = 2 := Fin.ext he
    refine ⟨_, exec_rsFeed_of_room hne hroom 0x12, ?_⟩
    rw [hcnt, hgen, hpar, htwo]
    exact ⟨feedPar_example.1, feedPar_example.2, rfl⟩

/-- Settles O34: RS_RDPAR is the indexed read of PAR, which writes RES alone. -/
theorem rsRdparReadsOneEcCodeword : Obligations.RsRdparReadsOneEcCodeword := by
  refine ⟨fun a => decode_encode (.rsRdpar a), fun a s he => readEntry_of_unconfigured he s.par a,
    fun a s he ha => readEntry_of_ge he ha s.par, ?entry, ?parity, ?sample⟩
  case entry =>
    intro a s i ha hi
    exact ⟨readEntry_of_lt ha hi s.par, readEntry_of_lt (s := s.setRes (zext32 s.par[i])) ha hi s.par⟩
  case parity =>
    intro a s ds ha hpar
    have hi : a.toNat < 30 := by have := s.e.isLt; omega
    have hentry : (rsParity s.e.val ds).getD a.toNat 0 = s.par[a.toNat] :=
      hpar ▸ entriesBelow_getD s.par (i := ⟨a.toNat, hi⟩) ha
    rw [hentry, exec_rsRdpar, readEntry_of_lt (i := ⟨a.toNat, hi⟩) rfl ha]
    rfl
  case sample => decide +kernel

/-- Settles O32: RS_CLR is `clearBlock`, which the invariant makes the identity while E = 0. -/
theorem rsClrStartsABlockWithTheSameE : Obligations.RsClrStartsABlockWithTheSameE := by
  refine ⟨decode_encode .rsClr, exec_rsClr, ?unconfigured⟩
  case unconfigured =>
    intro s hinv he
    rw [exec_rsClr, clearBlock_of_unconfigured hinv he]

/-- Settles O36: the word returned is E + 256 CNT as a number, which also fixes the example's word. -/
theorem rsRdcfgReadsEAndCnt : Obligations.RsRdcfgReadsEAndCnt := by
  refine ⟨decode_encode .rsRdcfg, fun s => ⟨s.cfgWord, exec_rsRdcfg s, cfgWord_toNat s⟩, ?sample, rfl⟩
  case sample =>
    intro s he hcnt
    have hword : s.cfgWord = 0x0000100A := BitVec.eq_of_toNat_eq (by rw [cfgWord_toNat, he, hcnt]; rfl)
    rw [exec_rsRdcfg, hword]
    rfl

end Sys2Proof.Proofs
end

section
/-! Proofs of the errors' statements (spec/60_exceptions.md): a command either records the first error that applies or
performs its own effect, and neither looks at the record. -/

namespace Sys2Proof.Machine

open Sys2Proof.Safety

/-! ## The first error that applies (R83, R84) -/

/-- The first two errors of the order are found in decoding; a decoded command is checked for the other four. -/
theorem firstError_eq (i : Instr) (s : State) :
    firstError i s = [.notConfigured, .illegalOperand, .domain, .length].find? (fun c => applies c i s) := rfl

/-- The two indexed reads raise the same errors. -/
theorem firstError_rsRdgen (a : BitVec 8) (s : State) : firstError (.rsRdgen a) s = firstError (.rsRdpar a) s := rfl

theorem gfLog?_eq_none_iff {a : Elem} : gfLog? a = none ↔ a = 0 := by
  constructor
  · intro hnone
    by_contra ha
    obtain ⟨l, _, rfl⟩ := exists_gfExpTable_eq ha
    cases hnone.symm.trans (gfLog?_gfExpTable l)
  · rintro rfl
    exact gfLog?_zero

theorem gfInv?_eq_none_iff {a : Elem} : gfInv? a = none ↔ a = 0 := by
  rw [gfInv?, Option.map_eq_none_iff, gfLog?_eq_none_iff]

/-! ## What a command does: the first error's record, or its own effect -/

/-- The effect of a command that no error rejects. The defaults stand for results that do not exist: reading them is an
error. -/
def performed (i : Instr) (s : State) : State :=
  match i with
  | .nop => s
  | .srst => resetRegs s
  | .clrerr => clearErr s
  | .rsCfg a => clearBlock { s with e := Fin.ofNat 31 a.toNat, gen := genFile a.toNat }
  | .rsClr => clearBlock s
  | .rsFeed a => { s with par := feedPar s.e s.par s.gen a, cnt := s.cnt + 1 }
  | .rsRdpar a => s.setRes (zext32 (s.par[a.toNat]?.getD 0))
  | .rsRdgen a => s.setRes (zext32 (s.gen[a.toNat]?.getD 0))
  | .rsRdcfg => s.setRes s.cfgWord
  | .gfMul a b => s.setRes (zext32 (gfMul a b))
  | .gfExp a => s.setRes (zext32 (alphaPow a.toNat))
  | .gfLog a => s.setRes (zext32 (BitVec.ofNat 8 ((gfLog? a).getD 0)))
  | .gfInv a => s.setRes (zext32 ((gfInv? a).getD 0))
  | .bchFmt ecl mask => s.setRes ((formatWord ecl mask).setWidth 32)
  | .bchVer ver => s.setRes ((versionWord ver).setWidth 32)

/-- The shared indexed read, by its first error (R69, R70). -/
theorem readEntry_firstError_cases (f : RegFile) (a : BitVec 8) (s : State) :
    (∃ c, firstError (.rsRdpar a) s = some c ∧ readEntry f a s = .next (raiseErr c s)) ∨
    (firstError (.rsRdpar a) s = none ∧ readEntry f a s = .next (s.setRes (zext32 (f[a.toNat]?.getD 0)))) := by
  rcases readEntry_cases f a s with ⟨he, hread⟩ | ⟨he, ha, hread⟩ | ⟨he, h30, ha, hread⟩
  · exact .inl ⟨_, by simp [firstError_eq, applies, he], hread⟩
  · exact .inl ⟨_, by simp [firstError_eq, applies, he, ha], hread⟩
  · exact .inr ⟨by simp [firstError_eq, applies, he, ha], by simp [hread, h30]⟩

/-- A command takes the first error that applies, or performs its effect if none does. -/
theorem exec_firstError_cases (i : Instr) (s : State) :
    (∃ c, firstError i s = some c ∧ exec i s = .next (raiseErr c s)) ∨
    (firstError i s = none ∧ exec i s = .next (performed i s)) := by
  cases i with
  | nop | srst | clrerr | rsClr | rsRdcfg | gfMul | gfExp | bchFmt => exact .inr ⟨rfl, rfl⟩
  | rsRdpar a => exact readEntry_firstError_cases s.par a s
  | rsRdgen a =>
    rw [firstError_rsRdgen]
    exact readEntry_firstError_cases s.gen a s
  | rsCfg a =>
    rcases execRsCfg_cases a s with ⟨ha, hexec⟩ | ⟨h1, h30, hexec⟩
    · exact .inl ⟨_, by simpa [firstError_eq, applies] using ha, hexec⟩
    · exact .inr ⟨by simp [firstError_eq, applies, h30, Nat.ne_of_gt h1], hexec⟩
  | rsFeed a =>
    rcases execRsFeed_cases a s with ⟨he, hexec⟩ | ⟨he, hfull, hexec⟩ | ⟨he, hroom, hexec⟩
    · exact .inl ⟨_, by simp [firstError_eq, applies, he], hexec⟩
    · exact .inl ⟨_, by simp [firstError_eq, applies, he, hfull], hexec⟩
    · exact .inr ⟨by simp [firstError_eq, applies, he, hroom], hexec⟩
  | gfLog a =>
    rcases execGfLog_cases a s with ⟨hlog, hexec⟩ | ⟨l, hlog, hexec⟩
    · exact .inl ⟨_, by simp [firstError_eq, applies, gfLog?_eq_none_iff.1 hlog], hexec⟩
    · have ha : a ≠ 0#8 := fun ha => by cases hlog.symm.trans (gfLog?_eq_none_iff.2 ha)
      exact .inr ⟨by simp [firstError_eq, applies, ha], by rw [performed, hlog]; exact hexec⟩
  | gfInv a =>
    rcases execGfInv_cases a s with ⟨hinv, hexec⟩ | ⟨v, hinv, hexec⟩
    · exact .inl ⟨_, by simp [firstError_eq, applies, gfInv?_eq_none_iff.1 hinv], hexec⟩
    · have ha : a ≠ 0#8 := fun ha => by cases hinv.symm.trans (gfInv?_eq_none_iff.2 ha)
      exact .inr ⟨by simp [firstError_eq, applies, ha], by rw [performed, hinv]; exact hexec⟩
  | bchVer ver =>
    rcases execBchVer_cases ver s with ⟨hver, hexec⟩ | ⟨h7, h40, hexec⟩
    · exact .inl ⟨_, by simpa [firstError_eq, applies] using hver, hexec⟩
    · exact .inr ⟨by simp [firstError_eq, applies, h7, h40], hexec⟩

theorem exec_of_firstError {i : Instr} {s : State} {c : ErrorCode} (h : firstError i s = some c) :
    exec i s = .next (recorded (numberOf c) s) := by
  rcases exec_firstError_cases i s with ⟨d, hd, hexec⟩ | ⟨hnone, _⟩
  · cases h.symm.trans hd
    exact eq_next_recorded_of_raiseErr hexec
  · cases h.symm.trans hnone

theorem exec_of_no_error {i : Instr} {s : State} (h : firstError i s = none) :
    exec i s = .next (performed i s) := by
  rcases exec_firstError_cases i s with ⟨d, hd, _⟩ | ⟨_, hexec⟩
  · cases h.symm.trans hd
  · exact hexec

/-! ## The record as an input (R24, R87) -/

/-- The state with another error record. -/
def State.withRecord (s : State) (err : Bool) (code : BitVec 4) : State := { s with err := err, ecode := code }

theorem firstError_withRecord (i : Instr) (s : State) (err : Bool) (code : BitVec 4) :
    firstError i (s.withRecord err code) = firstError i s :=
  firstError_congr i rfl rfl

/-- Taking an error reads the record only to write it. -/
theorem recorded_withRecord (n : BitVec 4) (s : State) (err : Bool) (code : BitVec 4) :
    ∃ err' code', recorded n (s.withRecord err code) = (recorded n s).withRecord err' code' := by
  have overwritten : ∀ err' code', (recorded n s).withRecord err' code' = s.withRecord err' code' := by
    intro err' code'
    rw [recorded_eq]
    split <;> rfl
  rw [recorded_eq]
  split
  · exact ⟨err, code, (overwritten err code).symm⟩
  · exact ⟨true, n, (overwritten true n).symm⟩

/-- SRST and CLRERR clear the record whatever it holds, and every other command's effect leaves it. -/
theorem performed_withRecord (i : Instr) (s : State) (err : Bool) (code : BitVec 4) :
    ∃ err' code', performed i (s.withRecord err code) = (performed i s).withRecord err' code' := by
  cases i with
  | srst | clrerr => exact ⟨false, 0, rfl⟩
  | nop | rsCfg | rsClr | rsFeed | rsRdpar | rsRdgen | rsRdcfg | gfMul | gfExp | gfLog | gfInv | bchFmt | bchVer =>
    exact ⟨err, code, rfl⟩

end Sys2Proof.Machine

namespace Sys2Proof.Proofs

open Sys2Proof Sys2Proof.Machine Sys2Proof.Safety

/-- Settles O42: the words that are no command are recorded in decoding, and a command by its first error. -/
theorem firstApplicableErrorIsRecorded : Obligations.FirstApplicableErrorIsRecorded := by
  refine ⟨fun _ s hdec => runCommand_of_illegalOpcode hdec s, fun _ s hdec => runCommand_of_reservedBits hdec s,
    ?word, fun _ _ _ herr => exec_of_firstError herr⟩
  case word =>
    intro w i s c hdec herr
    rw [runCommand_of_command hdec, exec_of_firstError herr]

/-- Settles O44: both runs meet the same first error or none, and then record it or perform the same effect. -/
theorem errorRecordInfluencesNoResult : Obligations.ErrorRecordInfluencesNoResult := by
  intro i s err code
  have hsame : firstError i (s.withRecord err code) = firstError i s := firstError_withRecord i s err code
  cases herr : firstError i s with
  | some c =>
    obtain ⟨err', code', h⟩ := recorded_withRecord (numberOf c) s err code
    exact ⟨_, err', code', exec_of_firstError herr,
      (exec_of_firstError (hsame.trans herr)).trans (congrArg Host.Outcome.next h)⟩
  | none =>
    obtain ⟨err', code', h⟩ := performed_withRecord i s err code
    exact ⟨_, err', code', exec_of_no_error herr,
      (exec_of_no_error (hsame.trans herr)).trans (congrArg Host.Outcome.next h)⟩

end Sys2Proof.Proofs
end

section
/-! Proofs of the command words' and the assembler's statements (spec/30_encoding.md): the four lanes make the word, a
word is its row's match value and its operand fields, and the operands of a well-formed line make one command. -/

namespace Sys2Proof

/-! ## The lanes of a word (R31) -/

theorem wordOfLanes_laneOf (w : Word) : wordOfLanes (laneOf w 0) (laneOf w 1) (laneOf w 2) (laneOf w 3) = w := by
  have hhigh : laneOf w 3 ++ laneOf w 2 = w.extractLsb' 16 16 :=
    BitVec.extractLsb'_append_extractLsb'_eq_extractLsb' rfl
  have hmid : w.extractLsb' 16 16 ++ laneOf w 1 = w.extractLsb' 8 24 :=
    BitVec.extractLsb'_append_extractLsb'_eq_extractLsb' rfl
  have hall : w.extractLsb' 8 24 ++ laneOf w 0 = w.extractLsb' 0 32 :=
    BitVec.extractLsb'_append_extractLsb'_eq_extractLsb' rfl
  rw [wordOfLanes, hhigh, hmid, hall, BitVec.extractLsb'_eq_self]

/-! ## A word from its row and its fields (R40 to R42) -/

/-- Putting a field of a word back in its place keeps the word's bits there and no other. -/
theorem extractLsb'_shiftLeft (w : Word) (lo n : Nat) :
    (w.extractLsb' lo n).setWidth 32 <<< lo = w &&& ((BitVec.allOnes n).setWidth 32 <<< lo) := by
  refine BitVec.eq_of_getLsbD_eq fun i hi => ?_
  by_cases hlo : i < lo
  · simp [hlo]
  · have hback : lo + (i - lo) = i := by omega
    simp [hlo, hi, hback, Bool.and_comm]

/-- What a row's mask leaves of a word is the word's operand fields, in each of the formats N, B, BB, F and V. -/
theorem encode_instrOf (w : Word) :
    ∀ r ∈ opTable, encode (instrOf r.mnemonic w) = r.matchBits ||| (w &&& ~~~r.mask) := by
  have hN : ∀ v : Word, v = v ||| (w &&& ~~~0xFFFFFFFF) := fun v =>
    calc v
      _ = v ||| 0#32 := BitVec.or_zero.symm
      _ = v ||| (w &&& ~~~0xFFFFFFFF) := congrArg (v ||| ·) (BitVec.and_zero (x := w)).symm
  have hzero : ∀ n, (w.extractLsb' 0 n).setWidth 32 = w &&& ((BitVec.allOnes n).setWidth 32 <<< 0) :=
    fun n => (BitVec.shiftLeft_zero _).symm.trans (extractLsb'_shiftLeft w 0 n)
  have hlow : (fieldLow w).setWidth 32 = w &&& 0xFF := hzero 8
  have hmask : (fieldMask w).setWidth 32 = w &&& 0x7 := hzero 3
  have hver : (fieldVer w).setWidth 32 = w &&& 0x3F := hzero 6
  have hhigh : (fieldHigh w).setWidth 32 <<< 8 = w &&& 0xFF00 := extractLsb'_shiftLeft w 8 8
  have hecl : (fieldEcl w).setWidth 32 <<< 8 = w &&& 0x300 := extractLsb'_shiftLeft w 8 2
  have hB : ∀ v : Word, v ||| (fieldLow w).setWidth 32 = v ||| (w &&& ~~~0xFFFFFF00) :=
    fun v => congrArg (v ||| ·) hlow
  have hBB : ∀ v : Word, v ||| (fieldHigh w).setWidth 32 <<< 8 ||| (fieldLow w).setWidth 32 =
      v ||| (w &&& ~~~0xFFFF0000) := by
    intro v
    rw [hhigh, hlow, BitVec.or_assoc, ← BitVec.and_or_distrib_left]
    rfl
  have hF : ∀ v : Word, v ||| (fieldEcl w).setWidth 32 <<< 8 ||| (fieldMask w).setWidth 32 =
      v ||| (w &&& ~~~0xFFFFFCF8) := by
    intro v
    rw [hecl, hmask, BitVec.or_assoc, ← BitVec.and_or_distrib_left]
    rfl
  have hV : ∀ v : Word, v ||| (fieldVer w).setWidth 32 = v ||| (w &&& ~~~0xFFFFFFC0) :=
    fun v => congrArg (v ||| ·) hver
  simp only [opTable, List.forall_mem_cons]
  exact ⟨hN _, hN _, hN _, hB _, hN _, hB _, hB _, hB _, hN _, hBB _, hB _, hB _, hB _, hF _, hV _,
    List.forall_mem_nil _⟩

/-- A word that decodes to a command is the word of that command. -/
theorem encode_of_decode {w : Word} {i : Instr} (h : decode w = .command i) : encode i = w := by
  obtain ⟨r, hr, hmatch, rfl⟩ := decode_eq_command_iff.1 h
  rw [encode_instrOf w r hr, ← hmatch, ← BitVec.and_or_distrib_left, BitVec.or_not_self, BitVec.and_allOnes]

end Sys2Proof

namespace Sys2Proof.Machine

/-! ## The assembler (R47) -/

/-- The line that writes a command is well formed. -/
theorem asm_wf (i : Instr) : i.asm.wf = true := by
  cases i with
  | nop => exact Laws.AsmWellFormed.nop
  | srst => exact Laws.AsmWellFormed.srst
  | clrerr => exact Laws.AsmWellFormed.clrerr
  | rsCfg a => exact Laws.AsmWellFormed.rsCfg a
  | rsClr => exact Laws.AsmWellFormed.rsClr
  | rsFeed a => exact Laws.AsmWellFormed.rsFeed a
  | rsRdpar a => exact Laws.AsmWellFormed.rsRdpar a
  | rsRdgen a => exact Laws.AsmWellFormed.rsRdgen a
  | rsRdcfg => exact Laws.AsmWellFormed.rsRdcfg
  | gfMul a b => exact Laws.AsmWellFormed.gfMul a b
  | gfExp a => exact Laws.AsmWellFormed.gfExp a
  | gfLog a => exact Laws.AsmWellFormed.gfLog a
  | gfInv a => exact Laws.AsmWellFormed.gfInv a
  | bchFmt ecl mask => exact Laws.AsmWellFormed.bchFmt ecl mask
  | bchVer ver => exact Laws.AsmWellFormed.bchVer ver

/-- The operand values of a command's line make the command. -/
theorem buildInstr_asm (i : Instr) : buildInstr i.asm.mnemonic (i.asm.operands.map AsmOperand.value) = some i := by
  cases i with
  | nop | srst | clrerr | rsClr | rsRdcfg => rfl
  | rsCfg | rsFeed | rsRdpar | rsRdgen | gfMul | gfExp | gfLog | gfInv | bchFmt | bchVer =>
    simp [Instr.asm, buildInstr, AsmOperand.value]

/-- An operand that a field admits stands for a number that fits it. -/
theorem value_le_of_admits {f : FieldKind} {o : AsmOperand} (h : f.admits o = true) : o.value ≤ f.maxValue := by
  cases o with
  | num n => exact of_decide_eq_true h
  | letter ecl =>
    obtain rfl : f = .ecl := by simpa [FieldKind.admits] using h
    cases ecl <;> decide

/-- The operands of a well-formed line fit the fields one by one. -/
theorem values_fit {fs : List FieldKind} {os : List AsmOperand} (h : operandsFit fs os = true) :
    List.Forall₂ (fun v f => v ≤ f.maxValue) (os.map AsmOperand.value) fs := by
  induction fs generalizing os with
  | nil =>
    cases os with
    | nil => exact .nil
    | cons => cases h
  | cons f fs ih =>
    cases os with
    | nil => cases h
    | cons o os =>
      obtain ⟨ho, hos⟩ := Bool.and_eq_true_iff.1 h
      exact .cons (value_le_of_admits ho) (ih hos)

/-- Values that fit a mnemonic's fields make a command of that mnemonic with these operand values. -/
theorem buildInstr_of_fit {m : Mnemonic} {vs : List Nat}
    (h : List.Forall₂ (fun v f => v ≤ f.maxValue) vs m.operandFields) :
    ∃ i, buildInstr m vs = some i ∧ i.mnemonic = m ∧ i.asm.operands.map AsmOperand.value = vs := by
  have hbyte : ∀ {a : Nat}, a ≤ FieldKind.byte.maxValue → a % 2 ^ 8 = a :=
    fun ha => Nat.mod_eq_of_lt (Nat.lt_succ_of_le ha)
  cases m with
  | nop | srst | clrerr | rsClr | rsRdcfg =>
    obtain rfl := List.forall₂_nil_right_iff.1 h
    exact ⟨_, rfl, rfl, rfl⟩
  | rsCfg | rsFeed | rsRdpar | rsRdgen | gfExp | gfLog | gfInv =>
    obtain ⟨a, _, ha, hnil, rfl⟩ := List.forall₂_cons_right_iff.1 h
    obtain rfl := List.forall₂_nil_right_iff.1 hnil
    exact ⟨_, rfl, rfl, congrArg (fun x => [x]) (hbyte ha)⟩
  | gfMul =>
    obtain ⟨a, _, ha, hcons, rfl⟩ := List.forall₂_cons_right_iff.1 h
    obtain ⟨b, _, hb, hnil, rfl⟩ := List.forall₂_cons_right_iff.1 hcons
    obtain rfl := List.forall₂_nil_right_iff.1 hnil
    exact ⟨_, rfl, rfl, congrArg₂ (fun x y => [x, y]) (hbyte ha) (hbyte hb)⟩
  | bchFmt =>
    obtain ⟨e, _, he, hcons, rfl⟩ := List.forall₂_cons_right_iff.1 h
    obtain ⟨k, _, hk, hnil, rfl⟩ := List.forall₂_cons_right_iff.1 hcons
    obtain rfl := List.forall₂_nil_right_iff.1 hnil
    exact ⟨_, rfl, rfl, congrArg₂ (fun x y => [x, y]) (Nat.mod_eq_of_lt (Nat.lt_succ_of_le he))
      (Nat.mod_eq_of_lt (Nat.lt_succ_of_le hk))⟩
  | bchVer =>
    obtain ⟨v, _, hv, hnil, rfl⟩ := List.forall₂_cons_right_iff.1 h
    obtain rfl := List.forall₂_nil_right_iff.1 hnil
    exact ⟨_, rfl, rfl, congrArg (fun x => [x]) (Nat.mod_eq_of_lt (Nat.lt_succ_of_le hv))⟩

/-- A well-formed line is assembled to a command with its mnemonic and its operand values. -/
theorem assemble_of_wf {c : AsmCommand} (h : c.wf = true) : ∃ i, assemble c = some i ∧ i.mnemonic = c.mnemonic ∧
    i.asm.operands.map AsmOperand.value = c.operands.map AsmOperand.value := by
  rw [assemble, if_pos h]
  exact buildInstr_of_fit (values_fit h)

theorem assemble_of_not_wf {c : AsmCommand} (h : c.wf = false) : assemble c = none :=
  if_neg (by rw [h]; exact Bool.false_ne_true)

end Sys2Proof.Machine

namespace Sys2Proof.Proofs

open Sys2Proof Sys2Proof.Machine

/-- Settles O2: the four lanes make the word again, and the word of a command matches its row. -/
theorem decodeEncodeRoundTrip : Obligations.DecodeEncodeRoundTrip := by
  intro i
  refine ⟨decode_encode i, ?lanes⟩
  case lanes => rw [decodeLanes, wordOfLanes_laneOf, decode_encode]

/-- Settles O3: a word is its row's match value together with its operand fields. -/
theorem encodeDecodeRoundTrip : Obligations.EncodeDecodeRoundTrip := fun _ _ h => encode_of_decode h

/-- Settles O8: a well-formed line has the operands its mnemonic needs, each within its field. -/
theorem assemblerRoundTripAndRefusal : Obligations.AssemblerRoundTripAndRefusal := by
  refine ⟨?roundTrip, ?keeps, ?refuses⟩
  case roundTrip =>
    intro i
    rw [assemble, if_pos (asm_wf i), buildInstr_asm]
  case keeps =>
    intro c i h
    cases hwf : c.wf with
    | false => cases (assemble_of_not_wf hwf).symm.trans h
    | true =>
      obtain ⟨j, hj, hm, hv⟩ := assemble_of_wf hwf
      cases h.symm.trans hj
      exact ⟨hm, hv⟩
  case refuses =>
    intro c
    refine ⟨fun hnone => ?_, assemble_of_not_wf⟩
    cases hwf : c.wf with
    | false => rfl
    | true =>
      obtain ⟨j, hj, _⟩ := assemble_of_wf hwf
      cases hnone.symm.trans hj

/-- Settles O1: each of the words is the word `encode` gives, or its opcode's row does not match it. -/
theorem decodeSampleWords : Obligations.DecodeSampleWords := by
  refine ⟨decode_encode .nop, decode_encode .srst, decode_encode .clrerr, decode_encode (.rsCfg 10),
    decode_encode .rsClr, decode_encode (.rsFeed 0x20), decode_encode (.rsRdpar 9), decode_encode (.rsRdgen 6),
    decode_encode .rsRdcfg, decode_encode (.gfMul 0x53 0xCA), decode_encode (.gfExp 254), decode_encode (.gfLog 0xFF),
    decode_encode (.gfInv 0x80), decode_encode (.bchFmt 2 3), decode_encode (.bchVer 40), ?nop, ?version, ?opcode⟩
  case nop => exact decode_of_reserved_field rfl (formatN_reserves 0x00 (by decide)) (by decide)
  case version => exact decode_of_reserved_field rfl formatV_reserves (by decide)
  case opcode => exact decode_eq_illegalOpcode_iff.2 (by decide)

end Sys2Proof.Proofs
end

section
/-! Proofs of the whole-machine statements (spec/10_state.md, spec/60_exceptions.md, spec/70_reset_and_hazards.md): the
invariant after each kind of update, the registers a command can write, and what every step keeps. -/

namespace Sys2Proof.Safety

open Sys2Proof.Machine

/-! ## The invariant after each kind of update -/

/-- No generator is loaded while E = 0 (R19). -/
theorem genFile_zero : genFile 0 = RegFile.zero :=
  Vector.ext fun i hi => by rw [genFile_above hi (Nat.zero_le i), zero_getElem]

/-- Registers at their reset values meet the invariant, whatever the reset line and the host do. -/
theorem Inv.of_registersReset {s : State} (h : RegistersReset s) : Inv s := by
  obtain ⟨he, hcnt, hpar, hgen, hres, herr, hcode⟩ := h
  exact {
    blockFits := fun hne => absurd he hne
    uncountedUnconfigured := fun _ => hcnt
    genOfE := by rw [hgen, he]; exact genFile_zero.symm
    parAboveE := fun i _ => by rw [hpar]; exact zero_getElem i i.isLt
    errIffCode := iff_of_true herr hcode
    codeLegal := by rw [hcode]; decide
    heldInReset := fun _ => ⟨he, hcnt, hpar, hgen, hres, herr, hcode⟩ }

/-- What leaves the RS unit's registers and a legal record keeps the invariant, as long as nothing is written during
reset. -/
theorem Inv.of_block_kept {s t : State} (h : Inv s) (he : t.e = s.e) (hcnt : t.cnt = s.cnt) (hpar : t.par = s.par)
    (hgen : t.gen = s.gen) (hrecord : t.err = false ↔ t.ecode = 0) (hcode : t.ecode.toNat ≤ 6)
    (hreset : t.inReset = true → RegistersReset t) : Inv t where
  blockFits := by rw [he, hcnt]; exact h.blockFits
  uncountedUnconfigured := by rw [he, hcnt]; exact h.uncountedUnconfigured
  genOfE := by rw [he, hgen]; exact h.genOfE
  parAboveE := by rw [he, hpar]; exact h.parAboveE
  errIffCode := hrecord
  codeLegal := hcode
  heldInReset := hreset

/-- The host's side is not part of the invariant. -/
theorem Inv.with_host {s : State} (h : Inv s) (pending : List HostEvent) (readLog : List Word) :
    Inv { s with pending := pending, readLog := readLog } :=
  h.of_block_kept rfl rfl rfl rfl h.errIffCode h.codeLegal h.heldInReset

/-- The number of an error is neither 0 nor above 6 (R83). -/
theorem code_legal (c : ErrorCode) : c.code ≠ 0#4 ∧ c.code.toNat ≤ 6 := by cases c <;> decide

section OutOfReset

variable {s : State} (hout : s.inReset = false)

include hout

/-- Out of reset nothing is held. -/
theorem held_of_out_of_reset {p : Prop} (hin : s.inReset = true) : p := by cases hout.symm.trans hin

theorem Inv.after_raiseErr (h : Inv s) (c : ErrorCode) : Inv (raiseErr c s) := by
  obtain ⟨hne, hle⟩ := code_legal c
  refine h.of_block_kept (raiseErr_e c s) (raiseErr_cnt c s) (raiseErr_par c s) (raiseErr_gen c s) ?_ ?_ ?_
  · cases herr : s.err with
    | false => simp [herr, hne]
    | true => simpa [herr] using h.errIffCode
  · rw [raiseErr_ecode]
    split
    · exact h.codeLegal
    · exact hle
  · rw [raiseErr_inReset]; exact held_of_out_of_reset hout

theorem Inv.after_clearErr (h : Inv s) : Inv (clearErr s) :=
  h.of_block_kept rfl rfl rfl rfl (iff_of_true rfl rfl) (Nat.zero_le 6) (held_of_out_of_reset hout)

theorem Inv.after_setRes (h : Inv s) (v : Word) : Inv (s.setRes v) :=
  h.of_block_kept rfl rfl rfl rfl h.errIffCode h.codeLegal (held_of_out_of_reset hout)

/-- A block begun with an E and its generator is empty, and its PAR is all 0 (R66, R67). -/
theorem Inv.after_clearBlock (h : Inv s) {e : Fin 31} {gen : RegFile} (hgen : gen = genFile e.val) :
    Inv (clearBlock { s with e := e, gen := gen }) where
  blockFits := fun _ => show 0 + e.val ≤ 255 by omega
  uncountedUnconfigured := fun _ => rfl
  genOfE := hgen
  parAboveE := fun i _ => zero_getElem i i.isLt
  errIffCode := h.errIffCode
  codeLegal := h.codeLegal
  heldInReset := held_of_out_of_reset hout

/-- An accepted feed writes PAR below E only and leaves CNT + E at most 255 (R17, R18). -/
theorem Inv.after_feed (h : Inv s) (he : s.e ≠ 0) (hroom : s.cnt.toNat + s.e.val < 255) (d : Byte) :
    Inv { s with par := feedPar s.e s.par s.gen d, cnt := s.cnt + 1 } where
  blockFits := fun _ => by
    show (s.cnt + 1).toNat + s.e.val ≤ 255
    rw [cnt_add_one_toNat hroom]; omega
  uncountedUnconfigured := fun hzero => absurd hzero he
  genOfE := h.genOfE
  parAboveE := fun i hi => (feedPar_above i.isLt hi).trans (h.parAboveE i hi)
  errIffCode := h.errIffCode
  codeLegal := h.codeLegal
  heldInReset := held_of_out_of_reset hout

theorem exec_keeps_inv {i : Instr} {t : State} (h : Inv s) (hexec : exec i s = .next t) : Inv t := by
  rcases exec_cases i s with ⟨c, hc⟩ | ⟨hc, _⟩ | ⟨hc, _⟩ | ⟨hc, _⟩ | ⟨hc, _⟩ | ⟨a, _, _, h30, hc⟩ |
    ⟨a, _, he, hroom, hc⟩ | ⟨v, hc, _⟩ <;> obtain rfl := Host.Outcome.next.inj (hexec.symm.trans hc)
  · exact h.after_raiseErr hout c
  · exact h
  · exact .of_registersReset ⟨rfl, rfl, rfl, rfl, rfl, rfl, rfl⟩
  · exact h.after_clearErr hout
  · exact h.after_clearBlock hout h.genOfE
  · exact h.after_clearBlock hout (congrArg genFile (Nat.mod_eq_of_lt (Nat.lt_succ_of_le h30)).symm)
  · exact h.after_feed hout he hroom a
  · exact h.after_setRes hout v

theorem runCommand_keeps_inv {w : Word} {t : State} (h : Inv s) (hrun : runCommand w s = .next t) : Inv t := by
  rcases runCommand_cases w s with ⟨i, _, hi⟩ | ⟨_, hi⟩ | ⟨_, hi⟩
  · exact exec_keeps_inv hout h (hi.symm.trans hrun)
  · cases hi.symm.trans hrun; exact h.after_raiseErr hout _
  · cases hi.symm.trans hrun; exact h.after_raiseErr hout _

end OutOfReset

end Sys2Proof.Safety

namespace Sys2Proof.Machine

open Sys2Proof.Safety

/-! ## What a command leaves unchanged (R13, R20) -/

/-- Out of the four commands that begin or continue a block, none writes CNT or PAR, and only two of them E or GEN. -/
theorem performed_block (i : Instr) (s : State) :
    (i.mnemonic ∉ [.rsCfg, .srst] → (performed i s).e = s.e ∧ (performed i s).gen = s.gen) ∧
    (i.mnemonic ∉ [.rsCfg, .rsClr, .rsFeed, .srst] → (performed i s).cnt = s.cnt ∧ (performed i s).par = s.par) := by
  cases i with
  | rsCfg | srst => simp [Instr.mnemonic]
  | rsClr | rsFeed => exact ⟨fun _ => ⟨rfl, rfl⟩, by simp [Instr.mnemonic]⟩
  | nop | clrerr | rsRdpar | rsRdgen | rsRdcfg | gfMul | gfExp | gfLog | gfInv | bchFmt | bchVer =>
    exact ⟨fun _ => ⟨rfl, rfl⟩, fun _ => ⟨rfl, rfl⟩⟩

theorem performed_res {i : Instr} (s : State)
    (h : i.mnemonic ∉ [.rsRdpar, .rsRdgen, .rsRdcfg, .gfMul, .gfExp, .gfLog, .gfInv, .bchFmt, .bchVer, .srst]) :
    (performed i s).res = s.res := by
  cases i with
  | nop | clrerr | rsCfg | rsClr | rsFeed => rfl
  | srst | rsRdpar | rsRdgen | rsRdcfg | gfMul | gfExp | gfLog | gfInv | bchFmt | bchVer => simp [Instr.mnemonic] at h

theorem performed_record (i : Instr) (s : State) :
    if i = .srst ∨ i = .clrerr then (performed i s).err = false ∧ (performed i s).ecode = 0
    else (performed i s).err = s.err ∧ (performed i s).ecode = s.ecode := by
  cases i with
  | srst | clrerr => exact ⟨rfl, rfl⟩
  | nop | rsCfg | rsClr | rsFeed | rsRdpar | rsRdgen | rsRdcfg | gfMul | gfExp | gfLog | gfInv | bchFmt | bchVer =>
    exact ⟨rfl, rfl⟩

/-- No command's effect reaches the reset line or the host's side. -/
theorem performed_host (i : Instr) (s : State) : (performed i s).inReset = s.inReset ∧
    (performed i s).pending = s.pending ∧ (performed i s).readLog = s.readLog := by
  cases i <;> exact ⟨rfl, rfl, rfl⟩

/-- Every command word, accepted or rejected, answers a next state with the reset line and the host's side as they
were. -/
theorem runCommand_next (w : Word) (s : State) : ∃ t, runCommand w s = .next t ∧ t.inReset = s.inReset ∧
    t.pending = s.pending ∧ t.readLog = s.readLog := by
  rcases runCommand_cases w s with ⟨i, _, hi⟩ | ⟨_, hi⟩ | ⟨_, hi⟩
  · rcases exec_firstError_cases i s with ⟨c, _, hexec⟩ | ⟨_, hexec⟩
    · exact ⟨_, hi.trans hexec, raiseErr_inReset c s, raiseErr_pending c s, raiseErr_readLog c s⟩
    · exact ⟨_, hi.trans hexec, performed_host i s⟩
  · exact ⟨_, hi, raiseErr_inReset _ s, raiseErr_pending _ s, raiseErr_readLog _ s⟩
  · exact ⟨_, hi, raiseErr_inReset _ s, raiseErr_pending _ s, raiseErr_readLog _ s⟩

/-! ## Reads of RES and STAT (R21, R28) -/

/-- Out of reset, a read of RES hands it to the host. -/
theorem step_read_res {s : State} {rest : List HostEvent} (hr : s.inReset = false)
    (hp : s.pending = .read 0x4 32 :: rest) : step s = .next (({ s with pending := rest } : State).receive s.res) :=
  (step_read_admitted hr rfl hp).trans (portRead_of_ne_stat (by decide) _)

/-- STAT as a number: ERR, CFG and ECODE at their places. -/
theorem statWord_toNat (s : State) :
    s.statWord.toNat = (if s.err then 1 else 0) + (if s.e = 0 then 0 else 2) + 16 * s.ecode.toNat := by
  have hfields : ∀ (code : BitVec 4) (cfg err : Bool),
      (0#24 ++ code ++ 0#2 ++ BitVec.ofBool cfg ++ BitVec.ofBool err : BitVec 32).toNat =
        (if err then 1 else 0) + (if cfg then 2 else 0) + 16 * code.toNat := by decide
  have hcfg : (if s.cfg then 2 else 0) = if s.e = 0 then 0 else 2 := by
    by_cases he : s.e = 0 <;> simp [State.cfg, he]
  rw [State.statWord, hfields, hcfg]

theorem portRead_stat_of_legal {s : State} (h : s.ecode.toNat ≤ 6) : portRead 0x8 s = .next (s.receive s.statWord) := by
  rw [portRead, (ecodeLegal_iff s).2 h, if_neg (by simp)]
  rfl

theorem portRead_stat_of_illegal {s : State} (h : 7 ≤ s.ecode.toNat) : portRead 0x8 s = .fault .ecodeNeverProduced := by
  have hillegal : s.ecodeLegal = false := by rw [Bool.eq_false_iff, ne_eq, ecodeLegal_iff]; omega
  exact if_pos ⟨rfl, hillegal⟩

/-! ## Faults (U7) -/

/-- The one fault is the read of an ECODE that is never produced. -/
theorem ecode_of_step_fault {s : State} {f : Fault} (h : step s = .fault f) : 7 ≤ s.ecode.toNat := by
  cases hp : s.pending with
  | nil => simp [step, hp] at h
  | cons ev rest =>
    rw [step_of_pending hp] at h
    cases ev with
    | assertReset | releaseReset => cases h
    | write o bits v =>
      simp only [serve, portWrite] at h
      split at h
      · cases h
      · split at h
        · split at h
          · obtain ⟨t, ht, _⟩ := runCommand_next v { s with pending := rest }
            cases ht.symm.trans h
          · cases h
        · cases h
    | read o bits =>
      simp only [serve, portRead] at h
      split at h
      · cases h
      · split at h
        · split at h
          next hfault =>
            have hillegal : ¬ s.ecode.toNat ≤ 6 := fun hle => by
              cases hfault.2.symm.trans ((ecodeLegal_iff { s with pending := rest }).2 hle)
            omega
          next => cases h
        · cases h

end Sys2Proof.Machine

namespace Sys2Proof.Proofs

open Sys2Proof Sys2Proof.Machine Sys2Proof.Safety

/-- Settles O47: out of reset by what each event writes, and in reset only the reset line can move. -/
theorem stepKeepsInvariant : Obligations.StepKeepsInvariant := by
  intro s t h hstep
  obtain ⟨ev, rest, _, hcase⟩ := step_next_cases hstep
  rcases hcase with ⟨w, _, hout, hrun⟩ | ⟨_, _, _, _, _, rfl⟩ | ⟨_, _, _, rfl⟩ | ⟨_, rfl⟩ | ⟨_, rfl⟩
  · exact runCommand_keeps_inv (s := { s with pending := rest }) hout (h.with_host rest s.readLog) hrun
  · exact h.with_host rest s.readLog
  · exact h.with_host rest _
  · exact .of_registersReset ⟨rfl, rfl, rfl, rfl, rfl, rfl, rfl⟩
  · exact h.of_block_kept rfl rfl rfl rfl h.errIffCode h.codeLegal (fun hin => nomatch hin)

/-- Settles O46: the reset state's registers are at their reset values. -/
theorem resetMeetsInvariant : Obligations.ResetMeetsInvariant :=
  Inv.of_registersReset ⟨rfl, rfl, rfl, rfl, rfl, rfl, rfl⟩

/-- Settles O43: a command that no error rejects has its own effect, which for two commands clears the record. -/
theorem onlyErrorsAndClearsWriteTheRecord : Obligations.OnlyErrorsAndClearsWriteTheRecord :=
  fun i s h => ⟨performed i s, exec_of_no_error h, performed_record i s⟩

/-- Settles O45: an error writes the record alone, and each command's effect writes its own registers. -/
theorem eachRegisterHasItsWriters : Obligations.EachRegisterHasItsWriters := by
  intro i s
  rcases exec_firstError_cases i s with ⟨c, _, hexec⟩ | ⟨hnone, hexec⟩
  · exact ⟨raiseErr c s, hexec, fun _ => raiseErr_e c s, fun _ => raiseErr_cnt c s, fun _ => raiseErr_par c s,
      fun _ => raiseErr_gen c s, fun _ => raiseErr_res c s, fun _ => raiseErr_res c s, raiseErr_inReset c s,
      raiseErr_pending c s, raiseErr_readLog c s⟩
  · obtain ⟨hcfg, hblock⟩ := performed_block i s
    exact ⟨performed i s, hexec, fun h => (hcfg h).1, fun h => (hblock h).1, fun h => (hblock h).2,
      fun h => (hcfg h).2, performed_res s, fun herr => absurd hnone herr, performed_host i s⟩

/-- Settles O48: an ignored write, a read and the release of reset write no register, and a fault needs an ECODE that
the invariant excludes. -/
theorem onlyCommandsAndResetChangeRegisters : Obligations.OnlyCommandsAndResetChangeRegisters := by
  refine ⟨?registers, ?noFault⟩
  case registers =>
    intro s t ev rest hp hstep hcmd hassert
    obtain ⟨ev', rest', hp', hcase⟩ := step_next_cases hstep
    obtain ⟨rfl, rfl⟩ := List.cons_eq_cons.1 (hp.symm.trans hp')
    rcases hcase with ⟨w, hev, _⟩ | ⟨_, _, _, _, _, rfl⟩ | ⟨_, _, _, rfl⟩ | ⟨hev, _⟩ | ⟨_, rfl⟩
    · exact absurd hev (hcmd w)
    · exact ⟨rfl, rfl, rfl, rfl, rfl, rfl, rfl⟩
    · exact ⟨rfl, rfl, rfl, rfl, rfl, rfl, rfl⟩
    · exact absurd hev hassert
    · exact ⟨rfl, rfl, rfl, rfl, rfl, rfl, rfl⟩
  case noFault =>
    intro s f h hfault
    have := h.codeLegal
    have := ecode_of_step_fault hfault
    omega

/-- Settles O18: the line's two events are served at once, and SRST is `resetRegs`. -/
theorem hardwareResetAndSrstLeaveTheResetState : Obligations.HardwareResetAndSrstLeaveTheResetState := by
  refine ⟨fun s rest hp => step_of_pending hp, exec_srst, fun s rest hp => step_of_pending hp, rfl, rfl, ?files, rfl,
    rfl, rfl, ?stat⟩
  case files => exact fun i => ⟨zero_getElem i i.isLt, zero_getElem i i.isLt⟩
  case stat => exact BitVec.eq_of_toNat_eq (statWord_toNat State.reset)

/-- Settles O11: a read returns the register's word, which for STAT is the number its fields make. -/
theorem resultAndStatusReads : Obligations.ResultAndStatusReads := by
  refine ⟨fun s rest hr hp => step_read_res hr hp, ?legal, ?illegal⟩
  case legal =>
    intro s rest hr hcode hp
    refine ⟨s.statWord, ?_, statWord_toNat s⟩
    rw [step_read_admitted hr rfl hp, portRead_stat_of_legal (s := { s with pending := rest }) hcode]
    rfl
  case illegal =>
    intro s rest hr hcode hp
    rw [step_read_admitted hr rfl hp, portRead_stat_of_illegal (s := { s with pending := rest }) hcode]

/-- Settles O13: the command leaves the two reads pending, and neither writes RES. -/
theorem nextReadSeesTheCommandsResult : Obligations.NextReadSeesTheCommandsResult := by
  intro s w rest hr hp
  obtain ⟨t, ht, htr, htp, htl⟩ := runCommand_next w { s with pending := .read 0x4 32 :: .read 0x4 32 :: rest }
  have hsecond := step_read_res (rest := rest) (s := ({ t with pending := .read 0x4 32 :: rest } : State).receive t.res)
    (htr.trans hr) rfl
  refine ⟨t, _, (step_cmd_write hr hp).trans ht, htp, step_read_res (htr.trans hr) htp, hsecond.trans ?_⟩
  simp [State.receive, htl]

/-- Settles O9: the write is admitted at CMD and runs the word. -/
theorem stepRunsTheDecodedCommand : Obligations.StepRunsTheDecodedCommand := by
  intro s w i rest hr hp hdec
  rw [step_cmd_write hr hp, runCommand_of_command hdec]

/-- Settles O12: an access meets the reset line first, then the rule of R29. -/
theorem accessesWithoutAStep : Obligations.AccessesWithoutAStep := by
  refine ⟨?notAdmitted, ?inReset, ?noAccess⟩
  case notAdmitted =>
    intro s o bits v rest hr hbad hp
    have hadm : admitted o bits = false := by rw [Bool.eq_false_iff, ne_eq, admitted_iff]; omega
    rcases hp with hp | hp <;> simp [step_of_pending hp, serve, hr, hadm]
  case inReset =>
    intro s o bits v rest hr hp
    rcases hp with hp | hp <;> simp [step_of_pending hp, serve, hr]
  case noAccess =>
    intro s hp
    simp [step, hp]

/-- Settles O14: the window holds the 16 addresses from QRECC_BASE on. -/
theorem windowAddressesSelectOffsets : Obligations.WindowAddressesSelectOffsets := by
  refine ⟨?inside, ?outside⟩
  case inside =>
    intro o
    have hlt : o.toNat < 16 := o.isLt
    rw [windowOffset?, if_pos (by omega), Nat.add_sub_cancel_left, BitVec.ofNat_toNat, BitVec.setWidth_eq]
  case outside =>
    intro addr h
    rw [windowOffset?, if_neg (by omega)]

end Sys2Proof.Proofs
end

section
/-! Proofs of the field's statements (spec/41_gf_arith.md sections 1 and 2): the laws of the product, by exponents or by
the linearity of the product loop, and the tables read off them. -/

namespace Sys2Proof.Machine

/-! ## The laws of the product (R53, R54) -/

theorem gfAdd_gfAdd_cancel (a b : Elem) : gfAdd (gfAdd a b) b = a := by rw [gfAdd_assoc, gfAdd_self, gfAdd_zero]

theorem gfAdd_gfAdd_comm (a b c d : Elem) : gfAdd (gfAdd a b) (gfAdd c d) = gfAdd (gfAdd a c) (gfAdd b d) := by
  simp only [gfAdd]
  ac_rfl

/-- The product loop is linear in its running multiple and its accumulator, since each doubling step is. -/
theorem gfMulLoop_gfAdd (b : Elem) (js : List Nat) (t u : BitVec 9) (r q : Elem) :
    gfMulLoop b js (t ^^^ u) (gfAdd r q) = gfAdd (gfMulLoop b js t r) (gfMulLoop b js u q) := by
  induction js generalizing t u r q with
  | nil => rfl
  | cons j js ih =>
    rw [gfMulLoop_cons, gfMulLoop_cons, gfMulLoop_cons, shiftReduce_xor, ← ih]
    congr 1
    cases b.getLsbD j with
    | false => rfl
    | true => exact (congrArg _ BitVec.setWidth_xor).trans (gfAdd_gfAdd_comm r q _ _)

theorem gfMul_gfAdd_left (a b c : Elem) : gfMul (gfAdd a b) c = gfAdd (gfMul a c) (gfMul b c) := by
  rw [gfMul, gfAdd, BitVec.setWidth_xor]
  exact gfMulLoop_gfAdd c (List.range 8) (a.setWidth 9) (b.setWidth 9) 0 0

theorem gfMul_gfAdd (a b c : Elem) : gfMul a (gfAdd b c) = gfAdd (gfMul a b) (gfMul a c) := by
  rw [gfMul_comm, gfMul_gfAdd_left, gfMul_comm b, gfMul_comm c]

theorem gfMul_one_right (a : Elem) : gfMul a 1 = a := by rw [gfMul_comm, gfMul_one_left]

/-- Elements other than 0 are powers of α, whose exponents add. -/
theorem gfMul_assoc (a b c : Elem) : gfMul (gfMul a b) c = gfMul a (gfMul b c) := by
  by_cases ha : a = 0
  · rw [ha, gfMul_zero_left, gfMul_zero_left, gfMul_zero_left]
  by_cases hb : b = 0
  · rw [hb, gfMul_zero_right, gfMul_zero_left, gfMul_zero_right]
  by_cases hc : c = 0
  · rw [hc, gfMul_zero_right, gfMul_zero_right, gfMul_zero_right]
  obtain ⟨l, _, rfl⟩ := exists_gfExpTable_eq ha
  obtain ⟨m, _, rfl⟩ := exists_gfExpTable_eq hb
  obtain ⟨n, _, rfl⟩ := exists_gfExpTable_eq hc
  simp only [← gfExpTable_add, Nat.add_assoc]

/-! ## The tables (R55 to R57) -/

/-- The recurrence of R55 on 8 bits: the bit shifted out brings in what 0x11D has below it. -/
theorem timesAlpha_eq (a : Elem) : timesAlpha a = if a.getLsbD 7 then (a <<< 1) ^^^ 0x1D else a <<< 1 := by
  revert a; decide

theorem gfExpTable_samples : gfExpTable 8 = 0x1D ∧ gfExpTable 25 = 0x03 ∧ gfExpTable 175 = 0xFF ∧
    gfExpTable 254 = 0x8E := by decide +kernel

theorem gfLog?_of_lt {i : Nat} (h : i < 255) : gfLog? (gfExpTable i) = some i := by
  rw [gfLog?_gfExpTable, Nat.mod_eq_of_lt h]

/-- Elements other than 0 have logarithms, and their product is the power at the sum (R56). -/
theorem exists_gfLog?_gfMul {a b : Elem} (ha : a ≠ 0) (hb : b ≠ 0) :
    ∃ l m, gfLog? a = some l ∧ gfLog? b = some m ∧ gfMul a b = gfExpTable ((l + m) % 255) := by
  obtain ⟨l, hl, rfl⟩ := exists_gfExpTable_eq ha
  obtain ⟨m, hm, rfl⟩ := exists_gfExpTable_eq hb
  exact ⟨l, m, gfLog?_of_lt hl, gfLog?_of_lt hm, by rw [gfExpTable_mod, gfExpTable_add]⟩

theorem gfMul_eq_gfMulByTable (a b : Elem) : gfMul a b = gfMulByTable a b := by
  by_cases ha : a = 0
  · rw [ha, gfMul_zero_left, gfMulByTable, gfLog?_zero]
    cases gfLog? b <;> rfl
  by_cases hb : b = 0
  · rw [hb, gfMul_zero_right, gfMulByTable, gfLog?_zero]
    cases gfLog? a <;> rfl
  obtain ⟨l, m, hl, hm, hproduct⟩ := exists_gfLog?_gfMul ha hb
  rw [hproduct, gfMulByTable, hl, hm]
  rfl

/-- No second element has the product 1: it is the inverse times that product. -/
theorem eq_of_gfMul_eq_one {a u v : Elem} (hv : gfMul a v = 1) (hu : gfMul a u = 1) : u = v := by
  calc u
    _ = gfMul (gfMul v a) u := by rw [gfMul_comm v, hv, gfMul_one_left]
    _ = v := by rw [gfMul_assoc, hu, gfMul_one_right]

/-! ## GF_DIV (R48) -/

/-- Multiplying by the inverse of `b` divides by `b`. -/
theorem gfMul_gfMul_inverse {b v : Elem} (hv : gfMul b v = 1) (a : Elem) : gfMul (gfMul a v) b = a := by
  rw [gfMul_assoc, gfMul_comm v, hv, gfMul_one_right]

/-- Out of reset, the write of a command's word executes the command. -/
theorem step_cmd {s : State} {i : Instr} {rest : List HostEvent} (hr : s.inReset = false)
    (hp : s.pending = cmd i :: rest) : step s = exec i { s with pending := rest } := by
  rw [step_cmd_write hr hp, runCommand_of_command (decode_encode i)]

theorem setWidth_zext32 (v : Byte) : (zext32 v).setWidth 8 = v :=
  (BitVec.setWidth_setWidth_of_le v (by decide)).trans (BitVec.setWidth_eq v)

end Sys2Proof.Machine

namespace Sys2Proof.Proofs

open Sys2Proof Sys2Proof.Machine

/-- Settles O19: distributivity is the linearity of the product loop, and the other laws are by exponents. -/
theorem fieldMultiplicationLaws : Obligations.FieldMultiplicationLaws :=
  ⟨gfMul_comm, gfMul_assoc, gfMul_gfAdd, gfMul_one_left, fun a => ⟨gfMul_zero_left a, gfMul_zero_right a⟩,
    gfAdd_gfAdd_cancel⟩

/-- Settles O20: α has order 255, so its powers are distinct and are all the elements but 0. -/
theorem powersOfAlphaRunThroughTheField : Obligations.PowersOfAlphaRunThroughTheField := by
  obtain ⟨h8, h25, h175, h254⟩ := gfExpTable_samples
  refine ⟨rfl, fun i _ => timesAlpha_eq (gfExpTable i), ?distinct, ?nonzero, gfExpTable_255, rfl, by decide, ?log,
    gfLog?_zero, h8, h25, h254, gfLog?_gfExpTable 1, ?logFF⟩
  case distinct => exact fun i j hi hj h => gfExpTable_injOn (Nat.lt_succ_of_le hi) (Nat.lt_succ_of_le hj) h
  case nonzero =>
    intro a
    constructor
    · intro ha
      obtain ⟨l, hl, hla⟩ := exists_gfExpTable_eq ha
      exact ⟨l, Nat.le_of_lt_succ hl, hla⟩
    · rintro ⟨i, _, rfl⟩
      exact gfExpTable_ne_zero i
  case log => exact fun i hi => gfLog?_of_lt (Nat.lt_succ_of_le hi)
  case logFF => exact h175 ▸ gfLog?_gfExpTable 175

/-- Settles O21: a factor of 0 has no logarithm, and two others are powers of α whose exponents add. -/
theorem tableMethodEqualsShiftAndAdd : Obligations.TableMethodEqualsShiftAndAdd := by
  refine ⟨?zero, fun a b ha hb => exists_gfLog?_gfMul ha hb, gfMul_eq_gfMulByTable⟩
  case zero =>
    rintro a b (rfl | rfl)
    · exact gfMul_zero_left b
    · exact gfMul_zero_right a

/-- Settles O22: the inverse is the power at the negated exponent, and associativity makes it the only one. -/
theorem inverseIsTheUniqueOne : Obligations.InverseIsTheUniqueOne := by
  refine ⟨?inverse, gfInv?_zero, ?zero⟩
  case inverse =>
    intro a ha
    obtain ⟨v, hav, hproduct, _⟩ := exists_gfInv? ha
    obtain ⟨l, hl, rfl⟩ := exists_gfExpTable_eq ha
    have hv : gfExpTable (255 - l) = v := by simpa [gfInv?_gfExpTable, Nat.mod_eq_of_lt hl] using hav
    exact ⟨v, l, hav, hproduct, fun u hu => eq_of_gfMul_eq_one hproduct hu, gfLog?_of_lt hl,
      by rw [gfExpTable_mod, hv]⟩
  case zero =>
    intro u
    rw [gfMul_zero_left]
    decide

/-- Settles O52: GF_INV leaves the inverse of b in RES, and GF_MUL multiplies a by it. -/
theorem gfDivReturnsTheQuotient : Obligations.GfDivReturnsTheQuotient := by
  intro s a b rest hb hr hp
  obtain ⟨v, hbv, hproduct, _⟩ := exists_gfInv? hb
  refine ⟨({ s with pending := rdRes :: rest } : State).setRes (zext32 v), _, zext32 v, gfMul a v, ?first,
    step_read_res hr rfl, rfl, rfl, hr, ?second, gfMul_gfMul_inverse hproduct a⟩
  case first => rw [step_cmd hr hp, exec_gfInv_of_some hbv]; rfl
  case second =>
    rw [gfDivSecond, setWidth_zext32]
    exact step_cmd (i := .gfMul a v) (rest := rest) (by exact hr) rfl

end Sys2Proof.Proofs
end

section
/-! Proofs of the Reed–Solomon code's statements (spec/42_reed_solomon.md sections 1 and 2): addition and evaluation of
polynomials, the generator and its roots, long division as a linear map that keeps values at the roots, and the shift
register of RS_FEED as one more step of that division. -/

namespace Sys2Proof.Machine

open Sys2Proof.Safety

/-! ## Adding polynomials of equal length -/

theorem zipWith_gfAdd_zeros (p : List Elem) : List.zipWith gfAdd p (List.replicate p.length 0) = p := by
  induction p with
  | nil => rfl
  | cons c p ih => exact congrArg₂ List.cons (gfAdd_zero c) ih

theorem zeros_zipWith_gfAdd (p : List Elem) : List.zipWith gfAdd (List.replicate p.length 0) p = p := by
  rw [List.zipWith_comm_of_comm gfAdd_comm, zipWith_gfAdd_zeros]

theorem map_gfMul_gfAdd (c d : Elem) (g : List Elem) :
    g.map (gfMul (gfAdd c d)) = List.zipWith gfAdd (g.map (gfMul c)) (g.map (gfMul d)) := by
  rw [List.zipWith_map, List.zipWith_self]
  exact List.map_congr_left fun x _ => gfMul_gfAdd_left c d x

theorem map_gfMul_zero (g : List Elem) : g.map (gfMul 0) = List.replicate g.length 0 := by
  rw [← List.map_const']
  exact List.map_congr_left fun x _ => gfMul_zero_left x

/-- Adding to the leading coefficients is adding the polynomial with zeros after it. -/
theorem addLeading_eq_zipWith {p q : List Elem} (h : q.length ≤ p.length) :
    addLeading p q = List.zipWith gfAdd p (q ++ List.replicate (p.length - q.length) 0) := by
  induction p generalizing q with
  | nil => rfl
  | cons c p ih =>
    cases q with
    | nil => exact (zipWith_gfAdd_zeros (c :: p)).symm
    | cons d q => simp [ih (Nat.le_of_succ_le_succ h)]

theorem addLeading_of_length_eq {p q : List Elem} (h : q.length = p.length) :
    addLeading p q = List.zipWith gfAdd p q := by
  rw [addLeading_eq_zipWith h.le, h, Nat.sub_self, List.replicate_zero, List.append_nil]

theorem addLeading_zeros (p : List Elem) (n : Nat) : addLeading p (List.replicate n 0) = p := by
  induction p generalizing n with
  | nil => rfl
  | cons c p ih =>
    cases n with
    | zero => rfl
    | succ n => exact congrArg₂ List.cons (gfAdd_zero c) (ih n)

theorem addLeading_append {p q : List Elem} (h : q.length ≤ p.length) (r : List Elem) :
    addLeading (p ++ r) q = addLeading p q ++ r := by
  induction p generalizing q with
  | nil =>
    obtain rfl := List.length_eq_zero_iff.1 (Nat.le_zero.1 h)
    exact addLeading_nil r
  | cons c p ih =>
    cases q with
    | nil => rfl
    | cons d q => exact congrArg (gfAdd c d :: ·) (ih (Nat.le_of_succ_le_succ h))

theorem addLeading_zipWith {p p' q q' : List Elem} (hp : p.length = p'.length) (hq : q.length = q'.length) :
    addLeading (List.zipWith gfAdd p p') (List.zipWith gfAdd q q') =
      List.zipWith gfAdd (addLeading p q) (addLeading p' q') := by
  induction p generalizing p' q q' with
  | nil =>
    obtain rfl := List.length_eq_zero_iff.1 hp.symm
    rfl
  | cons c p ih =>
    obtain ⟨c', p', rfl⟩ := List.exists_cons_of_length_eq_add_one hp.symm
    cases q with
    | nil =>
      obtain rfl := List.length_eq_zero_iff.1 hq.symm
      rfl
    | cons d q =>
      obtain ⟨d', q', rfl⟩ := List.exists_cons_of_length_eq_add_one hq.symm
      exact congrArg₂ List.cons (gfAdd_gfAdd_comm c c' d d') (ih (Nat.succ.inj hp) (Nat.succ.inj hq))

/-! ## Values at a point (R65) -/

theorem polyEval_zero_cons (p : List Elem) (x : Elem) : polyEval (0 :: p) x = polyEval p x := by
  rw [polyEval, List.foldl_cons, gfMul_zero_left]
  rfl

theorem polyEval_zipWith {p q : List Elem} (h : p.length = q.length) (x : Elem) :
    polyEval (List.zipWith gfAdd p q) x = gfAdd (polyEval p x) (polyEval q x) := by
  induction p using List.reverseRecOn generalizing q with
  | nil =>
    obtain rfl := List.length_eq_zero_iff.1 h.symm
    exact (gfAdd_self 0).symm
  | append_singleton p c ih =>
    rcases List.eq_nil_or_concat' q with rfl | ⟨q, d, rfl⟩
    · simp at h
    · have hlen : p.length = q.length := by simpa using h
      rw [List.zipWith_append hlen, List.zipWith_cons_cons, List.zipWith_nil_left, polyEval_append_singleton, ih hlen,
        polyEval_append_singleton, polyEval_append_singleton, gfMul_gfAdd_left, gfAdd_gfAdd_comm]

theorem polyEval_map_gfMul (c : Elem) (p : List Elem) (x : Elem) :
    polyEval (p.map (gfMul c)) x = gfMul c (polyEval p x) := by
  induction p using List.reverseRecOn with
  | nil => exact (gfMul_zero_right c).symm
  | append_singleton p d ih =>
    rw [List.map_append, List.map_singleton, polyEval_append_singleton, ih, polyEval_append_singleton, gfMul_gfAdd,
      gfMul_assoc]

/-- A multiple by a power of x vanishes where the polynomial does. -/
theorem polyEval_append_zeros {p : List Elem} {x : Elem} (h : polyEval p x = 0) (n : Nat) :
    polyEval (p ++ List.replicate n 0) x = 0 := by
  induction n with
  | zero => rw [List.replicate_zero, List.append_nil, h]
  | succ n ih =>
    rw [List.replicate_succ', ← List.append_assoc, polyEval_append_singleton, ih, gfMul_zero_left]
    rfl

/-! ## The generator (R62) -/

theorem genPoly_length (e : Nat) : (genPoly e).length = e + 1 := by
  induction e with
  | zero => rfl
  | succ e ih => rw [genPoly_succ, timesRoot_length, ih]

@[simp] theorem genCoeffs_length (e : Nat) : (genCoeffs e).length = e := by
  rw [genCoeffs, List.length_tail, genPoly_length, Nat.add_sub_cancel]

/-- The generator is monic. -/
theorem genPoly_eq_cons (e : Nat) : genPoly e = 1 :: genCoeffs e := by
  have hhead : (genPoly e).head? = some 1 := by
    induction e with
    | zero => rfl
    | succ e ih =>
      obtain ⟨g, hg⟩ := List.head?_eq_some_iff.1 ih
      rw [genPoly_succ, hg]
      rfl
  exact List.eq_cons_of_mem_head? hhead

theorem alphaPow_genB_add (n : Nat) : alphaPow (Config.genB + n) = gfExpTable n := by
  rw [alphaPow_eq_gfExpTable, Config.genB, Nat.zero_add]

/-- A product with (x + r) has the value of the product. -/
theorem polyEval_timesRoot (c : List Elem) (r x : Elem) :
    polyEval (timesRoot c r) x = gfMul (polyEval c x) (gfAdd x r) := by
  have hlen : (c ++ [0]).length = (0 :: c.map (fun cj => gfMul cj r)).length := by simp
  have hscaled : c.map (fun cj => gfMul cj r) = c.map (gfMul r) := List.map_congr_left fun cj _ => gfMul_comm cj r
  rw [timesRoot, polyEval_zipWith hlen, polyEval_append_singleton, polyEval_zero_cons, hscaled, polyEval_map_gfMul,
    gfMul_gfAdd, gfMul_comm r]
  exact congrArg (gfAdd · _) (gfAdd_zero _)

/-- The generator vanishes at its roots: one factor vanishes. -/
theorem polyEval_genPoly {e i : Nat} (h : i < e) : polyEval (genPoly e) (alphaPow i) = 0 := by
  induction e with
  | zero => cases h
  | succ e ih =>
    rw [genPoly_succ, polyEval_timesRoot]
    rcases Nat.lt_succ_iff_lt_or_eq.1 h with hlt | rfl
    · rw [ih hlt, gfMul_zero_left]
    · rw [alphaPow_genB_add, alphaPow_eq_gfExpTable, gfAdd_self]
      exact gfMul_zero_right _

/-- The constant term of the generator is the product of its roots, α to the sum of the exponents. -/
theorem genPoly_constant (e : Nat) : (genPoly e)[e]? = some (gfExpTable (e * (e - 1) / 2)) := by
  induction e with
  | zero => rfl
  | succ e ih =>
    have hlen : (genPoly e).length = e + 1 := genPoly_length e
    have hsum : (e + 1) * (e + 1 - 1) / 2 = e * (e - 1) / 2 + e := Nat.triangle_succ e
    rw [genPoly_succ, timesRoot, List.getElem?_zipWith, List.getElem?_append_right hlen.le, hlen, Nat.sub_self,
      List.getElem?_cons_succ, List.getElem?_map, ih, alphaPow_genB_add, hsum, gfExpTable_add]
    exact congrArg some (zero_gfAdd _)

/-! ## Long division (R63) -/

theorem divideSteps_nil (g : List Elem) (n : Nat) : divideSteps g n [] = [] := by cases n <;> rfl

theorem divideSteps_add (g : List Elem) (n m : Nat) (p : List Elem) :
    divideSteps g (n + m) p = divideSteps g m (divideSteps g n p) := by
  induction n generalizing p with
  | zero => rw [Nat.zero_add, divideSteps_zero]
  | succ n ih =>
    rw [Nat.succ_add]
    cases p with
    | nil => rw [divideSteps_nil, divideSteps_nil, divideSteps_nil]
    | cons c p => exact ih _

/-- Division is linear. -/
theorem divideSteps_zipWith (g : List Elem) (n : Nat) {p q : List Elem} (h : p.length = q.length) :
    divideSteps g n (List.zipWith gfAdd p q) = List.zipWith gfAdd (divideSteps g n p) (divideSteps g n q) := by
  induction n generalizing p q with
  | zero => rfl
  | succ n ih =>
    cases p with
    | nil =>
      obtain rfl := List.length_eq_zero_iff.1 h.symm
      rfl
    | cons c p =>
      obtain ⟨d, q, rfl⟩ := List.exists_cons_of_length_eq_add_one h.symm
      rw [List.zipWith_cons_cons, divideSteps_cons, divideSteps_cons, divideSteps_cons, map_gfMul_gfAdd,
        addLeading_zipWith (Nat.succ.inj h) (by simp), ih (by simpa using h)]

/-- A leading zero gives nothing to subtract. -/
theorem divideSteps_zero_cons (g : List Elem) (n : Nat) (p : List Elem) :
    divideSteps g (n + 1) (0 :: p) = divideSteps g n p := by
  rw [divideSteps_cons, map_gfMul_zero, addLeading_zeros]

theorem divideSteps_zeros_append (g : List Elem) (n : Nat) (p : List Elem) :
    divideSteps g n (List.replicate n 0 ++ p) = p := by
  induction n with
  | zero => rfl
  | succ n ih => rw [List.replicate_succ, List.cons_append, divideSteps_zero_cons, ih]

/-- Coefficients that no step reaches are carried along. -/
theorem divideSteps_append {g : List Elem} {n : Nat} {p : List Elem} (h : n + g.length ≤ p.length) (r : List Elem) :
    divideSteps g n (p ++ r) = divideSteps g n p ++ r := by
  induction n generalizing p with
  | zero => rfl
  | succ n ih =>
    obtain ⟨c, p, rfl⟩ := List.exists_cons_of_length_pos (show 0 < p.length by omega)
    have hlen : n + g.length ≤ p.length := by rw [List.length_cons] at h; omega
    rw [List.cons_append, divideSteps_cons, divideSteps_cons, addLeading_append (by rw [List.length_map]; omega),
      ih (by rw [addLeading_length]; exact hlen)]

/-- Each step subtracts a multiple of the divisor, so values at its roots are kept. -/
theorem polyEval_divideSteps {g : List Elem} {x : Elem} (hroot : polyEval (1 :: g) x = 0) {n : Nat} {p : List Elem}
    (h : n + g.length ≤ p.length) : polyEval (divideSteps g n p) x = polyEval p x := by
  induction n generalizing p with
  | zero => rfl
  | succ n ih =>
    obtain ⟨c, p, rfl⟩ := List.exists_cons_of_length_pos (show 0 < p.length by omega)
    have hlen : n + g.length ≤ p.length := by rw [List.length_cons] at h; omega
    have hle : (g.map (gfMul c)).length ≤ p.length := by rw [List.length_map]; omega
    have hmultiple :
        polyEval ((1 :: g).map (gfMul c) ++ List.replicate (p.length - (g.map (gfMul c)).length) 0) x = 0 :=
      polyEval_append_zeros (by rw [polyEval_map_gfMul, hroot, gfMul_zero_right]) _
    have hstep : 0 :: addLeading p (g.map (gfMul c)) = List.zipWith gfAdd (c :: p)
        ((1 :: g).map (gfMul c) ++ List.replicate (p.length - (g.map (gfMul c)).length) 0) := by
      rw [addLeading_eq_zipWith hle, List.map_cons, gfMul_one_right, List.cons_append, List.zipWith_cons_cons,
        gfAdd_self]
      rfl
    rw [divideSteps_cons, ih (by rw [addLeading_length]; exact hlen), ← polyEval_zero_cons, hstep,
      polyEval_zipWith (by simp; omega), hmultiple]
    exact gfAdd_zero _

/-! ## The parity of a block (R63 to R65) -/

@[simp] theorem rsParity_length (e : Nat) (ds : List Byte) : (rsParity e ds).length = e := by
  rw [rsParity, divideSteps_length, List.length_append, List.length_replicate, Nat.add_sub_cancel_left]

theorem rsParity_zipWith (e : Nat) {ds es : List Byte} (h : ds.length = es.length) :
    rsParity e (List.zipWith gfAdd ds es) = List.zipWith gfAdd (rsParity e ds) (rsParity e es) := by
  have hzeros : List.zipWith gfAdd (List.replicate e 0) (List.replicate e 0) = List.replicate e 0 := by simp
  have hlen : (List.zipWith gfAdd ds es).length = ds.length := by simp [h]
  rw [rsParity, hlen, ← hzeros, ← List.zipWith_append h, divideSteps_zipWith _ _ (by simp [h]), rsParity, rsParity, h]

theorem rsParity_zero_cons (e : Nat) (ds : List Byte) : rsParity e (0 :: ds) = rsParity e ds := by
  rw [rsParity, List.length_cons, List.cons_append, divideSteps_zero_cons, rsParity]

theorem rsParity_singleton (e : Nat) (d : Byte) : rsParity e [d] = (genCoeffs e).map (gfMul d) := by
  have hlen : ((genCoeffs e).map (gfMul d)).length = e := by simp
  calc rsParity e [d]
    _ = addLeading (List.replicate e 0) ((genCoeffs e).map (gfMul d)) := rfl
    _ = List.zipWith gfAdd (List.replicate e 0) ((genCoeffs e).map (gfMul d)) := addLeading_of_length_eq (by simp)
    _ = (genCoeffs e).map (gfMul d) := by rw (occs := .pos [1]) [← hlen]; exact zeros_zipWith_gfAdd _

/-- What follows the data is added to the remainder, since no step divides it. -/
theorem divideSteps_data_append (g ds r : List Elem) :
    divideSteps g ds.length (ds ++ r) =
      List.zipWith gfAdd (divideSteps g ds.length (ds ++ List.replicate r.length 0)) r := by
  have hsum : ds ++ r = List.zipWith gfAdd (ds ++ List.replicate r.length 0) (List.replicate ds.length 0 ++ r) := by
    rw [List.zipWith_append (by simp), zipWith_gfAdd_zeros, zeros_zipWith_gfAdd]
  rw [hsum, divideSteps_zipWith _ _ (by simp), divideSteps_zeros_append]

/-- The codeword sequence is a multiple of the generator. -/
theorem polyEval_codeword {e i : Nat} (h : i < e) (ds : List Byte) :
    polyEval (ds ++ rsParity e ds) (alphaPow i) = 0 := by
  have hroot : polyEval (1 :: genCoeffs e) (alphaPow i) = 0 := genPoly_eq_cons e ▸ polyEval_genPoly h
  have hremainder : divideSteps (genCoeffs e) ds.length (ds ++ rsParity e ds) =
      List.zipWith gfAdd (rsParity e ds) (rsParity e ds) := by
    rw [divideSteps_data_append, rsParity_length]
    rfl
  rw [← polyEval_divideSteps hroot (n := ds.length) (by simp), hremainder, polyEval_zipWith rfl, gfAdd_self]
  rfl

/-- The parity of one more byte is one more division step: the feedback of R68, and a shift. -/
theorem rsParity_append_singleton {e : Nat} (he : e ≠ 0) (ds : List Byte) (d : Byte) :
    rsParity e (ds ++ [d]) = List.zipWith gfAdd ((rsParity e ds).tail ++ [0])
      ((genCoeffs e).map (gfMul (gfAdd d ((rsParity e ds).headD 0)))) := by
  have hshifted : divideSteps (genCoeffs e) ds.length (ds ++ List.replicate (e + 1) 0) = rsParity e ds ++ [0] := by
    rw [List.replicate_succ', ← List.append_assoc, divideSteps_append (by simp)]
    rfl
  have hdata : divideSteps (genCoeffs e) ds.length (ds ++ d :: List.replicate e 0) =
      List.zipWith gfAdd (rsParity e ds ++ [0]) (d :: List.replicate e 0) := by
    rw [divideSteps_data_append, List.length_cons, List.length_replicate, hshifted]
  have hlen : (rsParity e ds).length = e := rsParity_length e ds
  cases hpar : rsParity e ds with
  | nil => rw [hpar] at hlen; exact absurd hlen.symm he
  | cons p ps =>
    have htail : (ps ++ [0]).length = e := by rw [hpar] at hlen; simpa using hlen
    rw [rsParity, List.length_append, List.length_singleton, divideSteps_add, List.append_assoc, List.singleton_append,
      hdata, hpar, List.cons_append, List.zipWith_cons_cons, divideSteps_cons, divideSteps_zero, ← htail,
      zipWith_gfAdd_zeros, gfAdd_comm p, htail]
    exact addLeading_of_length_eq (by simpa using htail.symm)

theorem rsParity_one (ds : List Byte) : rsParity 1 ds = [ds.foldl gfAdd 0] := by
  induction ds using List.reverseRecOn with
  | nil => rfl
  | append_singleton ds d ih =>
    have hgen : genCoeffs 1 = [1] := by decide
    rw [rsParity_append_singleton one_ne_zero, ih, hgen, List.foldl_append]
    exact congrArg (fun x => [x]) ((zero_gfAdd _).trans ((gfMul_one_right _).trans (gfAdd_comm _ _)))

/-! ## The register files as lists (R18, R19) -/

@[simp] theorem entriesBelow_length (f : RegFile) (e : Fin 31) : (entriesBelow f e).length = e.val := by
  simp [entriesBelow]; omega

theorem entriesBelow_getElem (f : RegFile) {e : Fin 31} {i : Nat} (h : i < (entriesBelow f e).length) :
    (entriesBelow f e)[i] = f[i]'(by rw [entriesBelow_length] at h; omega) := by
  simp [entriesBelow]

theorem entriesBelow_zero (e : Fin 31) : entriesBelow RegFile.zero e = rsParity e.val [] := by
  rw [rsParity_nil]
  exact List.ext_getElem (by simp) fun i hi _ => by simp [entriesBelow_getElem]

theorem entriesBelow_genFile (e : Fin 31) : entriesBelow (genFile e.val) e = genCoeffs e.val := by
  refine List.ext_getElem (by simp) fun i hi hi' => ?_
  have hlt : i < e.val := by simpa using hi
  rw [entriesBelow_getElem, genFile_getElem, if_pos hlt, List.getD_eq_getElem _ _ hi']

theorem entriesBelow_headD (f : RegFile) {e : Fin 31} (he : e ≠ 0) : (entriesBelow f e).headD 0 = f[0] := by
  have hpos : 0 < e.val := Nat.pos_of_ne_zero fun h => he (Fin.ext h)
  rw [List.headD_eq_head?_getD, List.head?_eq_getElem?]
  exact entriesBelow_getD f (i := 0) hpos

/-- PAR below E after RS_FEED: shifted by one with a 0 taken in, and the feedback through GEN added (R68). -/
theorem entriesBelow_feedPar {e : Fin 31} (he : e ≠ 0) (par gen : RegFile) (d : Byte) :
    entriesBelow (feedPar e par gen d) e = List.zipWith gfAdd ((entriesBelow par e).tail ++ [0])
      ((entriesBelow gen e).map (gfMul (gfAdd d ((entriesBelow par e).headD 0)))) := by
  have hpos : 0 < e.val := Nat.pos_of_ne_zero fun h => he (Fin.ext h)
  rw [entriesBelow_headD par he]
  refine List.ext_getElem (by simp; omega) fun i hi _ => ?_
  have hlt : i < e.val := by simpa using hi
  have h30 : i < 30 := by omega
  rw [entriesBelow_getElem, List.getElem_zipWith, List.getElem_map, entriesBelow_getElem]
  rcases Nat.lt_or_eq_of_le (Nat.succ_le_of_lt hlt) with hbelow | hlast
  · rw [List.getElem_append_left (by simp; omega), List.getElem_tail, entriesBelow_getElem]
    exact feedPar_shift (i := ⟨i, h30⟩) (j := ⟨i + 1, by omega⟩) rfl hbelow
  · rw [List.getElem_append_right (by simp; omega), List.getElem_singleton]
    exact (feedPar_last (i := ⟨i, h30⟩) hlast).trans (zero_gfAdd _).symm

/-- RS_FEED takes PAR from the parity of a block to the parity of the block with the codeword after it (R64). -/
theorem entriesBelow_feedPar_of_parity {e : Fin 31} (he : e ≠ 0) {par gen : RegFile} {ds : List Byte}
    (hgen : gen = genFile e.val) (hpar : entriesBelow par e = rsParity e.val ds) (d : Byte) :
    entriesBelow (feedPar e par gen d) e = rsParity e.val (ds ++ [d]) := by
  have hne : e.val ≠ 0 := fun h => he (Fin.ext h)
  rw [entriesBelow_feedPar he, hpar, hgen, entriesBelow_genFile, rsParity_append_singleton hne]

/-! ## The parity over a command and a step (R64) -/

theorem rsCfg_legal_of_no_error {a : BitVec 8} {s : State} (h : firstError (.rsCfg a) s = none) :
    1 ≤ a.toNat ∧ a.toNat ≤ 30 := by
  rcases execRsCfg_cases a s with ⟨ha, _⟩ | ⟨h1, h30, _⟩
  · have : firstError (.rsCfg a) s = some .illegalOperand := by simpa [firstError_eq, applies] using ha
    cases this.symm.trans h
  · exact ⟨h1, h30⟩

theorem rsFeed_room_of_no_error {a : BitVec 8} {s : State} (h : firstError (.rsFeed a) s = none) :
    s.e ≠ 0 ∧ s.cnt.toNat + s.e.val < 255 := by
  simpa [firstError_eq, applies] using h

theorem holdsParityOf_clearBlock {s : State} (h : s.e = 0 ∨ s.gen = genFile s.e.val) :
    HoldsParityOf (clearBlock s) [] :=
  h.imp_right fun hgen => ⟨hgen, rfl, entriesBelow_zero s.e⟩

/-- An accepted feed adds its codeword to the block. -/
theorem holdsParityOf_feed {s : State} {ds : List Byte} (he : s.e ≠ 0) (hroom : s.cnt.toNat + s.e.val < 255)
    (h : HoldsParityOf s ds) (d : Byte) :
    HoldsParityOf { s with par := feedPar s.e s.par s.gen d, cnt := s.cnt + 1 } (ds ++ [d]) := by
  obtain ⟨hgen, hcnt, hpar⟩ := h.resolve_left he
  exact .inr ⟨hgen, (cnt_add_one_toNat hroom).trans (by simp [hcnt]), entriesBelow_feedPar_of_parity he hgen hpar d⟩

/-- The effect of a command keeps PAR the parity of the block that R64 then speaks of. -/
theorem holdsParityOf_performed {i : Instr} {s : State} {ds : List Byte} (h : HoldsParityOf s ds)
    (hnone : firstError i s = none) : HoldsParityOf (performed i s) (fedByCommand i ds) := by
  cases i with
  | srst => exact .inl rfl
  | rsCfg a =>
    have hval : (Fin.ofNat 31 a.toNat).val = a.toNat :=
      Nat.mod_eq_of_lt (Nat.lt_succ_of_le (rsCfg_legal_of_no_error hnone).2)
    exact holdsParityOf_clearBlock (.inr (congrArg genFile hval.symm))
  | rsClr => exact holdsParityOf_clearBlock (h.imp_right fun hblock => hblock.1)
  | rsFeed d =>
    obtain ⟨he, hroom⟩ := rsFeed_room_of_no_error hnone
    exact holdsParityOf_feed he hroom h d
  | nop | clrerr | rsRdpar | rsRdgen | rsRdcfg | gfMul | gfExp | gfLog | gfInv | bchFmt | bchVer =>
    exact h.congr rfl rfl rfl rfl

theorem holdsParityOf_raiseErr {s : State} {ds : List Byte} (h : HoldsParityOf s ds) (c : ErrorCode) :
    HoldsParityOf (raiseErr c s) ds :=
  h.congr (raiseErr_e c s) (raiseErr_cnt c s) (raiseErr_par c s) (raiseErr_gen c s)

theorem holdsParityOf_runCommand {w : Word} {s t : State} {ds : List Byte} (h : HoldsParityOf s ds)
    (hrun : runCommand w s = .next t) : HoldsParityOf t (fedByWord w s ds) := by
  rcases runCommand_cases w s with ⟨i, hdec, hi⟩ | ⟨hdec, hi⟩ | ⟨hdec, hi⟩ <;> simp only [fedByWord, hdec]
  · rcases exec_firstError_cases i s with ⟨c, hc, hexec⟩ | ⟨hnone, hexec⟩ <;> cases hrun.symm.trans (hi.trans hexec)
    · rw [if_neg (by rw [hc]; exact Option.some_ne_none c)]
      exact holdsParityOf_raiseErr h c
    · rw [if_pos hnone]
      exact holdsParityOf_performed h hnone
  · cases hi.symm.trans hrun
    exact holdsParityOf_raiseErr h _
  · cases hi.symm.trans hrun
    exact holdsParityOf_raiseErr h _

/-- Which bytes a command word leaves does not depend on the host's side. -/
theorem fedByWord_congr (w : Word) {s t : State} (he : t.e = s.e) (hcnt : t.cnt = s.cnt) (ds : List Byte) :
    fedByWord w t ds = fedByWord w s ds := by
  simp only [fedByWord, firstError_congr _ he hcnt]

theorem holdsParityOf_step {s t : State} {ev : HostEvent} {rest : List HostEvent} {ds : List Byte}
    (hp : s.pending = ev :: rest) (h : HoldsParityOf s ds) (hstep : step s = .next t) :
    HoldsParityOf t (fedAfter ev s ds) := by
  obtain ⟨ev', rest', hp', hcase⟩ := step_next_cases hstep
  obtain ⟨rfl, rfl⟩ := List.cons_eq_cons.1 (hp.symm.trans hp')
  rcases hcase with ⟨w, rfl, _, hrun⟩ | ⟨_, _, rfl, ho, _, rfl⟩ | ⟨_, rfl, _, rfl⟩ | ⟨rfl, rfl⟩ | ⟨rfl, rfl⟩
  · have hfed : fedByWord w { s with pending := rest } ds = fedAfter (.write 0x0 32 w) s ds :=
      fedByWord_congr w rfl rfl ds
    rw [← hfed]
    exact holdsParityOf_runCommand (h.congr rfl rfl rfl rfl) hrun
  · rw [fedAfter_ignored _ _ _ _ ho]
    exact h.congr rfl rfl rfl rfl
  · exact h.congr rfl rfl rfl rfl
  · exact .inl rfl
  · exact h.congr rfl rfl rfl rfl

/-! ## RS_RDGEN (R70) -/

theorem exec_rsRdgen (a : BitVec 8) (s : State) : exec (.rsRdgen a) s = readEntry s.gen a s := rfl

/-- The last entry of GEN below E is the constant term of the generator. -/
theorem genFile_last {e i : Nat} (h : i < 30) (hi : i + 1 = e) : (genFile e)[i] = gfExpTable (e * (e - 1) / 2) := by
  have hconstant := genPoly_constant e
  rw [genPoly_eq_cons, ← hi, List.getElem?_cons_succ, hi] at hconstant
  rw [genFile_getElem, if_pos (by omega), List.getD_eq_getElem?_getD, hconstant, Option.getD_some]

/-- The ends of the generator of E = 7 (R62). -/
theorem genFile_seven : (genFile 7)[0] = 0x7F ∧ (genFile 7)[6] = 0x75 := by decide +kernel

end Sys2Proof.Machine

namespace Sys2Proof.Proofs

open Sys2Proof Sys2Proof.Machine Sys2Proof.Safety

/-- Settles O53: only CMD writes and reset touch the block, an error keeps it, and each command's effect keeps the
parity of the bytes that R64 then speaks of. -/
theorem stepKeepsTheBlocksParity : Obligations.StepKeepsTheBlocksParity := by
  refine ⟨?some, fun s t ev rest ds => holdsParityOf_step, .inl rfl⟩
  case some =>
    rintro s t ⟨ds, h⟩ hstep
    obtain ⟨ev, rest, hp, _⟩ := step_next_cases hstep
    exact ⟨_, holdsParityOf_step hp h hstep⟩

/-- Settles O27: each factor (x + r) adds a degree and a root, and keeps the leading 1. -/
theorem generatorHasItsRoots : Obligations.GeneratorHasItsRoots := by
  refine ⟨fun e => ⟨genPoly_length e, ?monic, fun i hi => polyEval_genPoly hi⟩, by decide, by decide, by decide +kernel⟩
  case monic => rw [genPoly_eq_cons]; rfl

/-- Settles O28: a cleared PAR is the parity of no byte, and a feed is one more division step. -/
theorem parityIsTheRemainderOfWhatWasFed : Obligations.ParityIsTheRemainderOfWhatWasFed := by
  have hzero : ∀ i : Fin 30, RegFile.zero[i] = 0 := fun i => zero_getElem i i.isLt
  refine ⟨?cfg, ?clr, ?feed⟩
  case cfg =>
    intro a s h1 h30
    exact ⟨_, exec_rsCfg_of_legal h1 h30 s, rfl, rfl, rfl, entriesBelow_zero _, hzero⟩
  case clr => exact fun s => ⟨_, exec_rsClr s, rfl, rfl, rfl, entriesBelow_zero s.e, hzero⟩
  case feed =>
    intro s ds d he hgen hcnt hroom hpar
    rw [← hcnt] at hroom
    obtain ⟨_, hcnt', hpar'⟩ := (holdsParityOf_feed he hroom (.inr ⟨hgen, hcnt, hpar⟩) d).resolve_left he
    exact ⟨_, exec_rsFeed_of_room he hroom d, rfl, rfl, hcnt', hpar'⟩

/-- Settles O29: division keeps the values at the roots, and data and parity leave the remainder 0. -/
theorem codewordVanishesAtTheRoots : Obligations.CodewordVanishesAtTheRoots :=
  fun e ds => ⟨rsParity_length e ds, fun _ hi => polyEval_codeword hi ds⟩

/-- Settles O30: every step of the division is linear, and takes nothing from a leading zero. -/
theorem parityIsLinear : Obligations.ParityIsLinear :=
  ⟨fun e _ _ h => rsParity_zipWith e h, rsParity_zero_cons, rsParity_singleton, rsParity_one⟩

/-- Settles O35: RS_RDGEN is the indexed read of GEN, whose last entry is the product of the generator's roots. -/
theorem rsRdgenReadsOneCoefficient : Obligations.RsRdgenReadsOneCoefficient := by
  have hentry : ∀ (a : BitVec 8) (s : State) (i : Fin 30), a.toNat = i.val → i.val < s.e.val →
      exec (.rsRdgen a) s = .next { s with res := s.gen[i].setWidth 32 } := fun a s i ha hi =>
    (exec_rsRdgen a s).trans (readEntry_of_lt ha hi s.gen)
  refine ⟨fun a => decode_encode (.rsRdgen a), fun a s he => readEntry_of_unconfigured he s.gen a,
    fun a s he ha => readEntry_of_ge he ha s.gen, hentry, ?constant, ?sample⟩
  case constant =>
    intro a s hgen ha
    have h30 : a.toNat < 30 := by omega
    have hlast : s.gen[a.toNat] = gfExpTable ((s.e.val * (s.e.val - 1) / 2) % 255) := by
      rw [gfExpTable_mod, hgen]
      exact genFile_last h30 ha
    rw [hentry a s ⟨a.toNat, h30⟩ rfl (by simp; omega), ← hlast]
    rfl
  case sample =>
    intro s he hgen
    have hfirst : s.gen[(0 : Fin 30)] = 0x7F := by rw [hgen]; exact genFile_seven.1
    have hlast : s.gen[(6 : Fin 30)] = 0x75 := by rw [hgen]; exact genFile_seven.2
    constructor
    · rw [hentry 0 s 0 rfl (by rw [he]; decide), hfirst]
      rfl
    · rw [hentry 6 s 6 rfl (by rw [he]; decide), hlast]
      rfl

end Sys2Proof.Proofs
end

section
/-! Proofs of the BCH encoder's statements (spec/43_bch.md): one division step bit by bit, the remainder as a linear map
below the generator's degree, the shift register as the same division, and the words it completes as a linear code. -/

namespace Sys2Proof.Machine

open Sys2Proof.Safety

/-! ## Degrees and bits (R11) -/

/-- A polynomial is below 2^k exactly when it has no bit from k on. -/
theorem toNat_lt_two_pow_iff {v : BitVec 18} {k : Nat} : v.toNat < 2 ^ k ↔ ∀ i, k ≤ i → v.getLsbD i = false := by
  constructor
  · intro h i hi
    exact Nat.testBit_lt_two_pow (h.trans_le (Nat.pow_le_pow_right (by decide) hi))
  · exact fun h => Nat.lt_pow_two_of_testBit _ h

theorem extractLsb'_of_lt {v : BitVec 18} {k : Nat} (h : v.toNat < 2 ^ k) (n : Nat) : v.extractLsb' k n = 0 := by
  refine BitVec.eq_of_getLsbD_eq fun i hi => ?_
  rw [BitVec.getLsbD_extractLsb', toNat_lt_two_pow_iff.1 h _ (Nat.le_add_right k i), Bool.and_false]
  exact BitVec.getLsbD_zero.symm

theorem getLsbD_shiftLeft_of_lt {m i : Nat} (h : i < m) (v : BitVec 18) : (v <<< m).getLsbD i = false := by
  rw [BitVec.getLsbD_shiftLeft, decide_eq_true h, Bool.not_true, Bool.and_false, Bool.false_and]

/-- A generator of degree `m`: its highest bit is bit `m`. -/
def HasDegree (g : BitVec 18) (m : Nat) : Prop := g.getLsbD m = true ∧ ∀ i, m < i → g.getLsbD i = false

theorem hasDegree_of_bounds {g : BitVec 18} {m : Nat} (hlow : 2 ^ m ≤ g.toNat) (hhigh : g.toNat < 2 ^ (m + 1)) :
    HasDegree g m := by
  have habove : ∀ i, m < i → g.getLsbD i = false := toNat_lt_two_pow_iff.1 hhigh
  refine ⟨?_, habove⟩
  by_contra hm
  have hbelow : g.toNat < 2 ^ m := toNat_lt_two_pow_iff.2 fun i hi => by
    rcases Nat.eq_or_lt_of_le hi with rfl | hlt
    · exact eq_false_of_ne_true hm
    · exact habove i hlt
  omega

/-! ## The steps of the division (R77) -/

/-- One pass of the loop of R77, at bit `m + n`. -/
def bchStep (g : BitVec 18) (m n : Nat) (v : BitVec 18) : BitVec 18 :=
  if v.getLsbD (m + n) then v ^^^ (g <<< n) else v

theorem bchReduce_succ_eq (g : BitVec 18) (m n : Nat) (v : BitVec 18) :
    bchReduce g m (n + 1) v = bchReduce g m n (bchStep g m n v) := rfl

theorem bchStep_getLsbD (g : BitVec 18) (m n : Nat) (v : BitVec 18) (i : Nat) :
    (bchStep g m n v).getLsbD i = (v.getLsbD i ^^ (v.getLsbD (m + n) && (g <<< n).getLsbD i)) := by
  rw [bchStep]
  split
  next h => rw [BitVec.getLsbD_xor, h, Bool.true_and]
  next h => rw [eq_false_of_ne_true h, Bool.false_and, Bool.xor_false]

theorem bchStep_of_bit_clear {v : BitVec 18} {m n : Nat} (h : v.getLsbD (m + n) = false) (g : BitVec 18) :
    bchStep g m n v = v := if_neg (by rw [h]; exact Bool.false_ne_true)

/-- A step is linear: it subtracts the generator as often as its bit is set. -/
theorem bchStep_xor (g : BitVec 18) (m n : Nat) (u v : BitVec 18) :
    bchStep g m n (u ^^^ v) = bchStep g m n u ^^^ bchStep g m n v := by
  refine BitVec.eq_of_getLsbD_eq fun i _ => ?_
  simp only [BitVec.getLsbD_xor, bchStep_getLsbD, Bool.and_xor_distrib_right, Bool.xor_assoc, Bool.xor_left_comm]

theorem bchReduce_xor (g : BitVec 18) (m n : Nat) (u v : BitVec 18) :
    bchReduce g m n (u ^^^ v) = bchReduce g m n u ^^^ bchReduce g m n v := by
  induction n generalizing u v with
  | zero => rfl
  | succ n ih => rw [bchReduce_succ_eq, bchStep_xor, ih, bchReduce_succ_eq, bchReduce_succ_eq]

/-- A polynomial below the generator's degree has nothing to divide. -/
theorem bchReduce_of_lt {v : BitVec 18} {m : Nat} (h : v.toNat < 2 ^ m) (g : BitVec 18) (n : Nat) :
    bchReduce g m n v = v := by
  induction n with
  | zero => rfl
  | succ n ih => rw [bchReduce_succ_eq, bchStep_of_bit_clear (toNat_lt_two_pow_iff.1 h _ (Nat.le_add_right m n)), ih]

/-- A step clears the bit it looks at. -/
theorem bchStep_lt {g v : BitVec 18} {m n : Nat} (hg : HasDegree g m) (hn : n + 1 + m ≤ 18)
    (hv : v.toNat < 2 ^ (n + 1 + m)) : (bchStep g m n v).toNat < 2 ^ (n + m) := by
  obtain ⟨hm, habove⟩ := hg
  refine toNat_lt_two_pow_iff.2 fun i hi => ?_
  rw [bchStep_getLsbD]
  rcases Nat.eq_or_lt_of_le hi with rfl | hlt
  · have hbit : (g <<< n).getLsbD (n + m) = true := by simp [hm]; omega
    rw [hbit, Bool.and_true, Nat.add_comm m n, Bool.xor_self]
  · have hbit : (g <<< n).getLsbD i = false := by simp [habove (i - n) (by omega)]
    rw [hbit, Bool.and_false, Bool.xor_false]
    exact toNat_lt_two_pow_iff.1 hv i (by omega)

theorem bchReduce_lt {g v : BitVec 18} {m n : Nat} (hg : HasDegree g m) (hn : n + m ≤ 18)
    (hv : v.toNat < 2 ^ (n + m)) : (bchReduce g m n v).toNat < 2 ^ m := by
  induction n generalizing v with
  | zero => rwa [Nat.zero_add] at hv
  | succ n ih => exact ih (by omega) (bchStep_lt hg hn hv)

/-- The generator times a power of x leaves no remainder: its step subtracts it from itself. -/
theorem bchReduce_shifted_generator {g : BitVec 18} {m n j : Nat} (hg : HasDegree g m) (hn : n + m ≤ 18) (hj : j < n) :
    bchReduce g m n (g <<< j) = 0 := by
  obtain ⟨hm, habove⟩ := hg
  induction n with
  | zero => cases hj
  | succ n ih =>
    rw [bchReduce_succ_eq]
    rcases Nat.lt_succ_iff_lt_or_eq.1 hj with hlt | rfl
    · have hbit : (g <<< j).getLsbD (m + n) = false := by simp [habove (m + n - j) (by omega)]
      rw [bchStep_of_bit_clear hbit, ih (by omega) hlt]
    · have hbit : (g <<< j).getLsbD (m + j) = true := by simp [hm]; omega
      rw [bchStep, if_pos hbit, BitVec.xor_self]
      exact bchReduce_of_lt (Nat.two_pow_pos m) g j

/-! ## The shift register (R78) -/

theorem lowBits_getLsbD (m : Nat) (s : BitVec 18) (i : Nat) :
    (lowBits m s).getLsbD i = (decide (i < m) && s.getLsbD i) := by
  by_cases hi : i < 18
  · rw [lowBits, BitVec.getLsbD_and, BitVec.getLsbD_ofNat, Nat.testBit_two_pow_sub_one, decide_eq_true hi,
      Bool.true_and, Bool.and_comm]
  · rw [BitVec.getLsbD_of_ge _ _ (by omega), BitVec.getLsbD_of_ge _ _ (by omega), Bool.and_false]

theorem lowBits_of_lt {v : BitVec 18} {m : Nat} (h : v.toNat < 2 ^ m) : lowBits m v = v := by
  refine BitVec.eq_of_getLsbD_eq fun i _ => ?_
  rw [lowBits_getLsbD]
  by_cases hi : i < m
  · rw [decide_eq_true hi, Bool.true_and]
  · rw [toNat_lt_two_pow_iff.1 h i (by omega), Bool.and_false]

/-- The register shifted by one data bit, with the feedback through the generator's lower bits. -/
theorem serialStep_getLsbD (m : Nat) (g s : BitVec 18) (b : Bool) (i : Nat) :
    (serialStep m g s b).getLsbD i =
      (decide (i < m) && ((s <<< 1).getLsbD i ^^ ((b ^^ s.getLsbD (m - 1)) && g.getLsbD i))) := by
  simp only [serialStep]
  split
  next h => rw [BitVec.getLsbD_xor, lowBits_getLsbD, lowBits_getLsbD, h, Bool.true_and, Bool.and_xor_distrib_left]
  next h => rw [lowBits_getLsbD, eq_false_of_ne_true h, Bool.false_and, Bool.xor_false]

theorem serialStep_lt (m : Nat) (g s : BitVec 18) (b : Bool) : (serialStep m g s b).toNat < 2 ^ m :=
  toNat_lt_two_pow_iff.2 fun i hi => by rw [serialStep_getLsbD, decide_eq_false (by omega), Bool.false_and]

/-- What is still to be divided: the register above the `n` data bits still to come. -/
def serialDividend (m : Nat) (f : BitVec 18) (n : Nat) (s : BitVec 18) : BitVec 18 := (s <<< n) ^^^ (lowBits n f <<< m)

theorem serialDividend_getLsbD (m : Nat) (f : BitVec 18) (n : Nat) (s : BitVec 18) {i : Nat} (hi : i < 18) :
    (serialDividend m f n s).getLsbD i =
      ((decide (n ≤ i) && s.getLsbD (i - n)) ^^ (decide (m ≤ i ∧ i < m + n) && f.getLsbD (i - m))) := by
  have hdata : (!decide (i < m) && decide (i - m < n)) = decide (m ≤ i ∧ i < m + n) := by
    rw [← decide_not, ← Bool.decide_and]
    exact decide_eq_decide.2 (by omega)
  have hstate : (!decide (i < n)) = decide (n ≤ i) := by rw [← decide_not]; exact decide_eq_decide.2 Nat.not_lt
  rw [serialDividend, BitVec.getLsbD_xor, BitVec.getLsbD_shiftLeft, BitVec.getLsbD_shiftLeft, lowBits_getLsbD,
    decide_eq_true hi, Bool.true_and, Bool.true_and, ← Bool.and_assoc, hdata, hstate]

/-- One data bit through the register is one step of the division. -/
theorem serialDividend_serialStep {m n : Nat} {g : BitVec 18} (hm1 : 1 ≤ m) (hn : n + 1 + m ≤ 18) (hg : HasDegree g m)
    (f : BitVec 18) {s : BitVec 18} (hs : s.toNat < 2 ^ m) :
    serialDividend m f n (serialStep m g s (f.getLsbD n)) = bchStep g m n (serialDividend m f (n + 1) s) := by
  obtain ⟨hm, habove⟩ := hg
  have hsabove := toNat_lt_two_pow_iff.1 hs
  have htop : (serialDividend m f (n + 1) s).getLsbD (m + n) = (f.getLsbD n ^^ s.getLsbD (m - 1)) := by
    rw [serialDividend_getLsbD _ _ _ _ (by omega), decide_eq_true (by omega), decide_eq_true (by omega), Bool.true_and,
      Bool.true_and, Nat.add_sub_cancel_left, show m + n - (n + 1) = m - 1 by omega, Bool.xor_comm]
  refine BitVec.eq_of_getLsbD_eq fun i hi => ?_
  have hone : (!decide (i - n < 1)) = decide (n + 1 ≤ i) := by rw [← decide_not]; exact decide_eq_decide.2 (by omega)
  rw [bchStep_getLsbD, htop, serialDividend_getLsbD _ _ _ _ hi, serialDividend_getLsbD _ _ _ _ hi, serialStep_getLsbD,
    BitVec.getLsbD_shiftLeft, BitVec.getLsbD_shiftLeft, Nat.sub_sub, hone]
  rcases Nat.lt_or_ge i n with hlow | hlow
  · simp [hlow, show ¬ n ≤ i by omega, show ¬ n + 1 ≤ i by omega, show i < m + n by omega,
      show i < m + (n + 1) by omega]
  rcases Nat.lt_trichotomy i (m + n) with hin | rfl | hover
  · have hdata : decide (m ≤ i ∧ i < m + (n + 1)) = decide (m ≤ i ∧ i < m + n) := decide_eq_decide.2 (by omega)
    rw [hdata, decide_eq_true hlow, decide_eq_true hi, decide_eq_true (show i - n < 18 by omega),
      decide_eq_true (show i - n < m by omega), decide_eq_false (show ¬ i < n by omega)]
    simp only [Bool.not_false, Bool.true_and]
    exact Bool.xor_right_comm _ _ _
  · simp [hm, hi, show 0 < m by omega, show m + n - (n + 1) = m - 1 by omega]
  · simp [habove (i - n) (by omega), hsabove (i - (n + 1)) (by omega), show ¬ i - n < m by omega,
      show ¬ i < m + n by omega, show ¬ i < m + (n + 1) by omega]

/-- The register ends at the remainder of what it was fed. -/
theorem bchSerial_eq_bchReduce {m n : Nat} {g : BitVec 18} (hm1 : 1 ≤ m) (hn : n + m ≤ 18) (hg : HasDegree g m)
    (f : BitVec 18) {s : BitVec 18} (hs : s.toNat < 2 ^ m) :
    bchSerial m g f n s = bchReduce g m n (serialDividend m f n s) := by
  induction n generalizing s with
  | zero => simp [serialDividend, lowBits]
  | succ n ih =>
    rw [bchSerial_succ, ih (by omega) (serialStep_lt m g s _), serialDividend_serialStep hm1 hn hg f hs,
      bchReduce_succ_eq]

/-! ## The words of a generator (R80, R81) -/

/-- The data bits above their check bits: the systematic word of both BCH commands. -/
def bchWord {n : Nat} (m : Nat) (g : BitVec 18) (d : BitVec n) : BitVec 18 :=
  (d.setWidth 18 <<< m) ||| bchRem (n + m) m (d.setWidth 18 <<< m) g

theorem formatRaw_eq_bchWord (ecl : BitVec 2) (mask : BitVec 3) :
    formatRaw ecl mask = bchWord 10 Config.fmtGen (formatData ecl mask) := rfl

theorem versionWord_eq_bchWord (ver : BitVec 6) : versionWord ver = bchWord 12 Config.verGen ver := rfl

section Word

variable {n m : Nat} {g : BitVec 18} (hn : n + m ≤ 18) (hg : HasDegree g m)

theorem shifted_data_lt (m : Nat) (d : BitVec n) : (d.setWidth 18 <<< m).toNat < 2 ^ (n + m) :=
  toNat_lt_two_pow_iff.2 fun i hi => by
    rw [BitVec.getLsbD_shiftLeft, BitVec.getLsbD_setWidth, BitVec.getLsbD_of_ge d _ (by omega), Bool.and_false,
      Bool.and_false]

include hn hg

theorem check_bits_lt (d : BitVec n) : (bchRem (n + m) m (d.setWidth 18 <<< m) g).toNat < 2 ^ m := by
  rw [bchRem_add]
  exact bchReduce_lt hg hn (shifted_data_lt m d)

/-- Data and check bits do not meet, so the word is their sum. -/
theorem bchWord_eq_xor (d : BitVec n) :
    bchWord m g d = (d.setWidth 18 <<< m) ^^^ bchRem (n + m) m (d.setWidth 18 <<< m) g := by
  refine BitVec.eq_of_getLsbD_eq fun i _ => ?_
  rw [bchWord, BitVec.getLsbD_or, BitVec.getLsbD_xor]
  rcases Nat.lt_or_ge i m with hlow | hhigh
  · rw [getLsbD_shiftLeft_of_lt hlow, Bool.false_or, Bool.false_xor]
  · rw [toNat_lt_two_pow_iff.1 (check_bits_lt hn hg d) i hhigh, Bool.or_false, Bool.xor_false]

/-- The words are a linear code. -/
theorem bchWord_xor (d d' : BitVec n) : bchWord m g (d ^^^ d') = bchWord m g d ^^^ bchWord m g d' := by
  rw [bchWord_eq_xor hn hg, bchWord_eq_xor hn hg, bchWord_eq_xor hn hg, BitVec.setWidth_xor,
    BitVec.shiftLeft_xor_distrib, bchRem_add, bchReduce_xor, bchRem_add, bchRem_add]
  ac_rfl

/-- Every word is a multiple of the generator (R82). -/
theorem bchRem_bchWord (d : BitVec n) : bchRem (n + m) m (bchWord m g d) g = 0 := by
  have hcheck := check_bits_lt hn hg d
  rw [bchWord_eq_xor hn hg, bchRem_add, bchReduce_xor, bchReduce_of_lt hcheck, bchRem_add, BitVec.xor_self]
  rfl

/-- The high bits of a word are its data. -/
theorem bchWord_data (d : BitVec n) : (bchWord m g d).extractLsb' m n = d := by
  refine BitVec.eq_of_getLsbD_eq fun i hi => ?_
  have hcheck := toNat_lt_two_pow_iff.1 (check_bits_lt hn hg d) (m + i) (Nat.le_add_right m i)
  rw [BitVec.getLsbD_extractLsb', bchWord, BitVec.getLsbD_or, hcheck, BitVec.getLsbD_shiftLeft, BitVec.getLsbD_setWidth,
    Nat.add_sub_cancel_left, decide_eq_true hi, decide_eq_true (show i < 18 by omega),
    decide_eq_true (show m + i < 18 by omega), decide_eq_false (show ¬ m + i < m by omega)]
  simp

/-- Without its check bits a word is its data, shifted. -/
theorem bchWord_shifted_data (d : BitVec n) : (bchWord m g d >>> m) <<< m = d.setWidth 18 <<< m := by
  refine BitVec.eq_of_getLsbD_eq fun i hi => ?_
  rcases Nat.lt_or_ge i m with hlow | hhigh
  · rw [getLsbD_shiftLeft_of_lt hlow, getLsbD_shiftLeft_of_lt hlow]
  · rw [BitVec.getLsbD_shiftLeft, BitVec.getLsbD_ushiftRight, bchWord, BitVec.getLsbD_or, Nat.add_sub_cancel' hhigh,
      toNat_lt_two_pow_iff.1 (check_bits_lt hn hg d) i hhigh, Bool.or_false, decide_eq_true hi,
      decide_eq_false (by omega)]
    rfl

/-- A word stays within data and check bits. -/
theorem bchWord_lt (d : BitVec n) : (bchWord m g d).toNat < 2 ^ (n + m) :=
  toNat_lt_two_pow_iff.2 fun i hi => by
    rw [bchWord, BitVec.getLsbD_or, toNat_lt_two_pow_iff.1 (shifted_data_lt m d) i hi,
      toNat_lt_two_pow_iff.1 (check_bits_lt hn hg d) i (by omega), Bool.or_false]

/-- Two words differ where the word of the sum of their data has bits. -/
theorem differingBits_bchWord (d d' : BitVec n) :
    differingBits (bchWord m g d) (bchWord m g d') = differingBits (bchWord m g (d ^^^ d')) 0 := by
  simp only [differingBits, bchWord_xor hn hg]
  rw [show ∀ x : BitVec 18, x ^^^ 0 = x from fun _ => BitVec.xor_zero]

end Word

/-- The low bits of a word are its check bits. -/
theorem bchWord_check {n : Nat} (m : Nat) (g : BitVec 18) (d : BitVec n) :
    (bchWord m g d).extractLsb' 0 m = (bchRem (n + m) m (d.setWidth 18 <<< m) g).extractLsb' 0 m := by
  refine BitVec.eq_of_getLsbD_eq fun i hi => ?_
  rw [BitVec.getLsbD_extractLsb', BitVec.getLsbD_extractLsb', bchWord, BitVec.getLsbD_or,
    getLsbD_shiftLeft_of_lt (show 0 + i < m by omega), Bool.false_or]

theorem fmtGen_degree : HasDegree Config.fmtGen 10 := hasDegree_of_bounds (by decide) (by decide)

theorem verGen_degree : HasDegree Config.verGen 12 := hasDegree_of_bounds (by decide) (by decide)

/-- Every format word but that of no data has at least 7 bits set. -/
theorem format_weight : ∀ d : BitVec 5, d ≠ 0 → 7 ≤ differingBits (bchWord 10 Config.fmtGen d) 0 := by decide

/-- Every version word but that of no data has at least 8 bits set. -/
theorem version_weight : ∀ d : BitVec 6, d ≠ 0 → 8 ≤ differingBits (bchWord 12 Config.verGen d) 0 := by decide

/-! ## The commands' words -/

theorem exec_bchFmt (ecl : BitVec 2) (mask : BitVec 3) (s : State) :
    exec (.bchFmt ecl mask) s = .next (s.setRes ((formatWord ecl mask).setWidth 32)) := rfl

theorem exec_bchVer_of_illegal {ver : BitVec 6} (h : ver.toNat < 7 ∨ 40 < ver.toNat) (s : State) :
    exec (.bchVer ver) s = .next (recorded 3 s) := by
  rcases execBchVer_cases ver s with ⟨_, hexec⟩ | ⟨_, _, _⟩
  · exact eq_next_recorded_of_raiseErr hexec
  · omega

theorem exec_bchVer_of_legal {ver : BitVec 6} (h7 : 7 ≤ ver.toNat) (h40 : ver.toNat ≤ 40) (s : State) :
    exec (.bchVer ver) s = .next (s.setRes ((versionWord ver).setWidth 32)) := by
  rcases execBchVer_cases ver s with ⟨_, _⟩ | ⟨_, _, hexec⟩
  · omega
  · exact hexec

/-- The masked word, with the mask taken off, is the raw word. -/
theorem formatWord_unmasked (ecl : BitVec 2) (mask : BitVec 3) :
    formatWord ecl mask ^^^ 0x5412 = formatRaw ecl mask := by
  rw [formatWord, BitVec.xor_assoc]
  exact (congrArg (formatRaw ecl mask ^^^ ·) BitVec.xor_self).trans BitVec.xor_zero

/-- Two format words differ where their raw words do. -/
theorem differingBits_formatWord (ecl ecl' : BitVec 2) (mask mask' : BitVec 3) :
    differingBits (formatWord ecl mask) (formatWord ecl' mask') =
      differingBits (formatRaw ecl mask) (formatRaw ecl' mask') := by
  have hmask : formatWord ecl mask ^^^ formatWord ecl' mask' = formatRaw ecl mask ^^^ formatRaw ecl' mask' := by
    rw [formatWord, formatWord, BitVec.xor_comm (formatRaw ecl' mask'), BitVec.xor_assoc,
      ← BitVec.xor_assoc Config.fmtMask, BitVec.xor_self, BitVec.zero_xor]
  simp only [differingBits, hmask]

/-- A format word fits its 15 bits, so RES holds all of it. -/
theorem formatWord_of_res (ecl : BitVec 2) (mask : BitVec 3) :
    (((formatWord ecl mask).setWidth 32 : Word).extractLsb' 0 15).setWidth 18 = formatWord ecl mask := by
  revert ecl mask; decide

/-- The mask taken off in RES, the word's high bits are its data. -/
theorem formatData_of_res (ecl : BitVec 2) (mask : BitVec 3) :
    ((formatWord ecl mask).setWidth 32 ^^^ 0x5412 : Word).extractLsb' 10 5 = formatData ecl mask := by
  revert ecl mask; decide

/-- The data bits carry the level code and the mask id (R79, R80). -/
theorem formatData_fields (ecl : BitVec 2) (mask : BitVec 3) : (formatData ecl mask).extractLsb' 3 2 =
    (if ecl = 0 then 0b01 else if ecl = 1 then 0b00 else if ecl = 2 then 0b11 else 0b10) ∧
    (formatData ecl mask).extractLsb' 0 3 = mask := by
  revert ecl mask; decide

theorem formatData_eq_zero_iff (ecl : BitVec 2) (mask : BitVec 3) : formatData ecl mask = 0 ↔ ecl = 1 ∧ mask = 0 := by
  revert ecl mask; decide

/-- No two operand pairs share their data bits. -/
theorem formatData_injective {ecl ecl' : BitVec 2} {mask mask' : BitVec 3}
    (h : formatData ecl mask = formatData ecl' mask') : (ecl, mask) = (ecl', mask') := by
  revert ecl ecl' mask mask'; decide

theorem formatWord_ne_zero (ecl : BitVec 2) (mask : BitVec 3) : formatWord ecl mask ≠ 0 := by
  revert ecl mask; decide

/-- A field of a field is a field. -/
theorem extractLsb'_extractLsb'_of_le {w lo n : Nat} (x : BitVec w) {lo' n' : Nat} (h : lo' + n' ≤ n) :
    (x.extractLsb' lo n).extractLsb' lo' n' = x.extractLsb' (lo + lo') n' := by
  refine BitVec.eq_of_getLsbD_eq fun i hi => ?_
  simp [hi, show lo' + i < n by omega, Nat.add_assoc]

end Sys2Proof.Machine

namespace Sys2Proof.Proofs

open Sys2Proof Sys2Proof.Machine Sys2Proof.Safety

/-- Settles O37: each step is linear and clears its bit, and meets nothing in what is already below the generator. -/
theorem bchRemainderIsBoundedAndLinear : Obligations.BchRemainderIsBoundedAndLinear := by
  refine ⟨?bounded, fun width m u v g => bchReduce_xor g m (width - m) u v, ?below, ?multiple⟩
  case bounded =>
    intro n m v g hn hv hlow hhigh
    rw [bchRem_add]
    exact bchReduce_lt (hasDegree_of_bounds hlow hhigh) hn hv
  case below =>
    intro n m v g hv
    rw [bchRem_add, bchReduce_of_lt hv]
  case multiple =>
    intro n m j g hn hlow hhigh hj
    rw [bchRem_add, bchReduce_shifted_generator (hasDegree_of_bounds hlow hhigh) hn hj]

/-- Settles O38: one data bit through the register is one step of the division. -/
theorem shiftRegisterEqualsDivision : Obligations.ShiftRegisterEqualsDivision := by
  intro n m f g hm1 hn hf hlow hhigh
  have hdividend : serialDividend m f n 0 = f <<< m := by
    rw [serialDividend, lowBits_of_lt hf]
    simp
  have hzero : (0 : BitVec 18).toNat < 2 ^ m := Nat.two_pow_pos m
  rw [bchRem_add, bchSerial_eq_bchReduce hm1 hn (hasDegree_of_bounds hlow hhigh) f hzero, hdividend]

/-- Settles O39: the raw word is a word of the generator, whose words form a linear code of weight at least 7. -/
theorem bchFmtReturnsTheFormatWord : Obligations.BchFmtReturnsTheFormatWord := by
  have hn : 5 + 10 ≤ 18 := by decide
  refine ⟨fun ecl mask => decode_encode (.bchFmt ecl mask), ?word, ?corner, formatData_eq_zero_iff, formatWord_ne_zero,
    ?distance, ?sample⟩
  case word =>
    intro ecl mask s
    have hdata : (formatRaw ecl mask).extractLsb' 10 5 = formatData ecl mask := bchWord_data hn fmtGen_degree _
    obtain ⟨hcode, hmask⟩ := formatData_fields ecl mask
    rw [← hdata, extractLsb'_extractLsb'_of_le _ (by decide)] at hcode hmask
    refine ⟨formatRaw ecl mask, exec_bchFmt ecl mask s, hcode, hmask, ?high, ?check⟩
    case high => exact extractLsb'_of_lt (bchWord_lt hn fmtGen_degree (formatData ecl mask)) 3
    case check =>
      rw [formatRaw_eq_bchWord, bchWord_shifted_data hn fmtGen_degree]
      exact bchWord_check 10 Config.fmtGen (formatData ecl mask)
  case corner => exact fun s => exec_bchFmt 1 0 s
  case distance =>
    intro ecl ecl' mask mask' hne
    rw [differingBits_formatWord, formatRaw_eq_bchWord, formatRaw_eq_bchWord, differingBits_bchWord hn fmtGen_degree]
    exact format_weight _ fun hzero => hne (formatData_injective (BitVec.xor_eq_zero_iff.1 hzero))
  case sample =>
    intro s
    have hword : formatWord 2 3 = 0x3A06 := by decide
    rw [exec_bchFmt, hword]
    rfl

/-- Settles O40: the version word is a word of its generator, whose words form a linear code of weight at least 8. -/
theorem bchVerReturnsTheVersionWord : Obligations.BchVerReturnsTheVersionWord := by
  have hn : 6 + 12 ≤ 18 := by decide
  refine ⟨fun ver => decode_encode (.bchVer ver), fun ver s h => exec_bchVer_of_illegal h s, ?word, ?distance, ?sample⟩
  case word =>
    intro ver s h7 h40
    exact ⟨versionWord ver, exec_bchVer_of_legal h7 h40 s, rfl, bchWord_data hn verGen_degree ver,
      bchWord_check 12 Config.verGen ver⟩
  case distance =>
    intro ver ver' _ _ _ _ hne
    rw [versionWord_eq_bchWord, versionWord_eq_bchWord, differingBits_bchWord hn verGen_degree]
    exact version_weight _ fun hzero => hne (BitVec.xor_eq_zero_iff.1 hzero)
  case sample =>
    intro s
    have hword : versionWord 7 = 0x7C94 := by decide
    rw [exec_bchVer_of_legal (by decide) (by decide), hword]
    rfl

/-- Settles O41: a word of a generator is a multiple of it with its data in the high bits, and RES holds all of it. -/
theorem formatAndVersionWordsRoundTrip : Obligations.FormatAndVersionWordsRoundTrip := by
  refine ⟨?format, ?version⟩
  case format =>
    intro ecl mask s t ht
    obtain rfl := Host.Outcome.next.inj ((exec_bchFmt ecl mask s).symm.trans ht)
    rw [setRes_res, formatWord_of_res, formatWord_unmasked]
    exact ⟨bchRem_bchWord (by decide) fmtGen_degree (formatData ecl mask), formatData_of_res ecl mask⟩
  case version =>
    intro ver s t h7 h40 ht
    obtain rfl := Host.Outcome.next.inj ((exec_bchVer_of_legal h7 h40 s).symm.trans ht)
    have hall : ((versionWord ver).setWidth 32 : Word).extractLsb' 0 18 = versionWord ver :=
      (BitVec.extractLsb'_setWidth_of_le (by decide)).trans BitVec.extractLsb'_eq_self
    have hdata : ((versionWord ver).setWidth 32 : Word).extractLsb' 12 6 = (versionWord ver).extractLsb' 12 6 :=
      BitVec.extractLsb'_setWidth_of_le (by decide)
    rw [setRes_res, hall, hdata]
    exact ⟨bchRem_bchWord (by decide) verGen_degree ver, bchWord_data (by decide) verGen_degree ver⟩

end Sys2Proof.Proofs
end

section
/-! Proofs of the host protocol's statements (spec/30_encoding.md R48, spec/42_reed_solomon.md R73 to R76): runs of the
feeds and of the reads by induction on what is fed and read, the split and its pieces, and the columns of the
interleave. -/

namespace Sys2Proof.Machine

open Sys2Proof.Safety

/-! ## Runs -/

theorem run_succ_of_step {s t : State} (h : step s = .next t) (n : Nat) :
    Sys2Proof.core.run (n + 1) s = Sys2Proof.core.run n t := by
  simp only [Host.Core.run, show Sys2Proof.core.step s = .next t from h]

/-- Two runs after one another are one. -/
theorem run_add_of_run {s t : State} {m : Nat} (h : Sys2Proof.core.run m s = .next t) (n : Nat) :
    Sys2Proof.core.run (m + n) s = Sys2Proof.core.run n t := by
  induction m generalizing s with
  | zero => cases h; rw [Nat.zero_add]
  | succ m ih =>
    rw [Nat.succ_add]
    simp only [Host.Core.run] at h ⊢
    cases hstep : Sys2Proof.core.step s with
    | next u => simp only [hstep] at h ⊢; exact ih h
    | fault f => simp [hstep] at h
    | refused r => simp [hstep] at h

/-! ## Feeding a block (R48, R64) -/

/-- Feeds that fit the block are all taken, and PAR ends as the parity of the block with them after it. -/
theorem run_feeds {s : State} {bs ds : List Byte} {rest : List HostEvent} (hr : s.inReset = false) (he : s.e ≠ 0)
    (h : HoldsParityOf s bs) (hlen : bs.length + ds.length + s.e.val ≤ 255) (hp : s.pending = feeds ds ++ rest) :
    ∃ par cnt, Sys2Proof.core.run ds.length s = .next { s with par := par, cnt := cnt, pending := rest } ∧
      HoldsParityOf { s with par := par, cnt := cnt, pending := rest } (bs ++ ds) := by
  induction ds generalizing s bs with
  | nil =>
    have hsame : s = { s with pending := rest } := by rw [← show s.pending = rest from hp]
    rw [List.append_nil]
    exact ⟨s.par, s.cnt, congrArg Host.Outcome.next hsame, h.congr rfl rfl rfl rfl⟩
  | cons d ds ih =>
    obtain ⟨_, hcnt, _⟩ := h.resolve_left he
    rw [List.length_cons] at hlen
    have hroom : s.cnt.toNat + s.e.val < 255 := by omega
    have hstep : step s = _ :=
      (step_cmd hr hp).trans (exec_rsFeed_of_room (s := { s with pending := feeds ds ++ rest }) he hroom d)
    have hfed := holdsParityOf_feed (s := { s with pending := feeds ds ++ rest }) he hroom (h.congr rfl rfl rfl rfl) d
    have hlen' : (bs ++ [d]).length + ds.length + s.e.val ≤ 255 := by
      rw [List.length_append, List.length_singleton]; omega
    rw [List.length_cons, run_succ_of_step hstep, ← List.singleton_append, ← List.append_assoc]
    exact ih hr he hfed hlen' rfl

/-- RS_CFG or RS_CLR and the feeds that follow it: a block begun empty ends as the parity of what was fed. -/
theorem run_block {s : State} {i : Instr} {e : Fin 31} {gen : RegFile} {ds : List Byte} {rest : List HostEvent}
    (hr : s.inReset = false) (hp : s.pending = cmd i :: (feeds ds ++ rest)) (he : e ≠ 0) (hgen : gen = genFile e.val)
    (hlen : ds.length + e.val ≤ 255)
    (hexec : ∀ evs, exec i { s with pending := evs } =
      .next (clearBlock { s with e := e, gen := gen, pending := evs })) :
    ∃ par cnt, Sys2Proof.core.run (ds.length + 1) s =
        .next { s with e := e, gen := gen, par := par, cnt := cnt, pending := rest } ∧
      cnt.toNat = ds.length ∧ entriesBelow par e = rsParity e.val ds := by
  have hstep : step s = _ := (step_cmd hr hp).trans (hexec (feeds ds ++ rest))
  have hempty := holdsParityOf_clearBlock (s := { s with e := e, gen := gen, pending := feeds ds ++ rest }) (.inr hgen)
  have hlen' : ([] : List Byte).length + ds.length + e.val ≤ 255 := by rw [List.length_nil]; omega
  obtain ⟨par, cnt, hrun, hblock⟩ :=
    run_feeds (s := clearBlock { s with e := e, gen := gen, pending := feeds ds ++ rest }) hr he hempty hlen' rfl
  obtain ⟨_, hcnt, hpar⟩ := hblock.resolve_left he
  exact ⟨par, cnt, (run_succ_of_step hstep _).trans hrun, hcnt, hpar⟩

/-! ## Reading a block (R48, R69) -/

/-- The words that reads of some entries of PAR return. -/
def wordsAt (par : RegFile) (is : List Nat) : List Word := is.map (fun i => zext32 (par[i]?.getD 0))

/-- The accesses that read some entries of PAR. -/
def readsOf (is : List Nat) : List HostEvent := is.flatMap (fun i => [cmd (.rsRdpar (BitVec.ofNat 8 i)), rdRes])

theorem rsReadall_eq_readsOf (e : Byte) : rsReadall e = readsOf (List.range e.toNat) := rfl

/-- All entries below E, in order, are what is read of the block. -/
theorem wordsAt_range (par : RegFile) (e : Fin 31) :
    wordsAt par (List.range e.val) = (entriesBelow par e).map (fun p => p.setWidth 32) := by
  refine List.ext_getElem (by simp [wordsAt]) fun i hi _ => ?_
  have hlt : i < e.val := by simpa [wordsAt] using hi
  have h30 : i < 30 := by omega
  simp [wordsAt, entriesBelow_getElem, zext32, h30]

/-- Reads below E return the entries in order; RES keeps the last one, and nothing else is written. -/
theorem run_reads {s : State} {is : List Nat} {rest : List HostEvent} (hr : s.inReset = false)
    (his : ∀ i ∈ is, i < s.e.val) (hp : s.pending = readsOf is ++ rest) :
    Sys2Proof.core.run (2 * is.length) s = .next { s with
      res := (wordsAt s.par is).getLast?.getD s.res, readLog := s.readLog ++ wordsAt s.par is, pending := rest } := by
  induction is generalizing s with
  | nil =>
    have hsame : s = { s with pending := rest } := by rw [← show s.pending = rest from hp]
    simp only [wordsAt, List.map_nil, List.getLast?_nil, Option.getD_none, List.append_nil]
    exact congrArg Host.Outcome.next hsame
  | cons i is ih =>
    obtain ⟨hi, htail⟩ := List.forall_mem_cons.1 his
    have h30 : i < 30 := by omega
    have hindex : (BitVec.ofNat 8 i).toNat = i := Nat.mod_eq_of_lt (by omega)
    have hread : step s = .next (({ s with pending := rdRes :: (readsOf is ++ rest) } : State).setRes
        (zext32 (s.par[i]?.getD 0))) := by
      rw [Vector.getElem?_eq_getElem h30, Option.getD_some]
      exact (step_cmd hr hp).trans (readEntry_of_lt (s := { s with pending := rdRes :: (readsOf is ++ rest) })
        (i := ⟨i, h30⟩) hindex hi s.par)
    have hreceive : step (({ s with pending := rdRes :: (readsOf is ++ rest) } : State).setRes
        (zext32 (s.par[i]?.getD 0))) = _ := step_read_res hr rfl
    rw [List.length_cons, Nat.mul_succ, run_succ_of_step hread, run_succ_of_step hreceive,
      ih (by exact hr) (by exact htail) rfl]
    simp [wordsAt, State.receive, State.setRes, List.getLast?_cons]

/-! ## The accesses for one block (R75) -/

/-- Either command that R75 lets the host begin a block with leaves E, its generator and an empty block. -/
theorem exists_blockSetup {s : State} (hinv : Inv s) {e : Fin 31} (he : e ≠ 0) : ∃ i, blockSetup s.e.val e.val = cmd i ∧
    ∀ evs, exec i { s with pending := evs } =
      .next (clearBlock { s with e := e, gen := genFile e.val, pending := evs }) := by
  by_cases hsame : s.e.val = e.val
  · obtain rfl := Fin.ext hsame
    refine ⟨.rsClr, if_pos rfl, fun evs => ?_⟩
    rw [exec_rsClr, ← hinv.genOfE]
  · have hindex : (BitVec.ofNat 8 e.val).toNat = e.val := Nat.mod_eq_of_lt (by omega)
    have hpos : e.val ≠ 0 := fun h => he (Fin.ext h)
    refine ⟨.rsCfg (BitVec.ofNat 8 e.val), if_neg hsame, fun evs => ?_⟩
    rw [exec_rsCfg_of_legal (by omega) (by omega)]
    simp only [hindex]

/-- The script of one block reads back the parity of its data. -/
theorem run_blockScript {s : State} (hinv : Inv s) (hr : s.inReset = false) {e : Fin 31} (he : e ≠ 0) {ds : List Byte}
    {rest : List HostEvent} (hlen : ds.length + e.val ≤ 255) (hp : s.pending = blockScript s.e.val e.val ds ++ rest) :
    ∃ par cnt res, Sys2Proof.core.run (blockScript s.e.val e.val ds).length s = .next { s with
        e := e, gen := genFile e.val, par := par, cnt := cnt, res := res,
        readLog := s.readLog ++ (rsParity e.val ds).map (fun p => p.setWidth 32), pending := rest } ∧
      cnt.toNat = ds.length := by
  obtain ⟨i, hsetup, hexec⟩ := exists_blockSetup hinv he
  have hindex : (BitVec.ofNat 8 e.val).toNat = e.val := Nat.mod_eq_of_lt (by omega)
  have hlength : (blockScript s.e.val e.val ds).length = ds.length + 1 + 2 * (List.range e.val).length := by
    rw [blockScript, List.length_cons, List.length_append, feeds_length, rsReadall_length, hindex, List.length_range]
    omega
  rw [blockScript, hsetup, List.cons_append, List.append_assoc, rsReadall_eq_readsOf, hindex] at hp
  obtain ⟨par, cnt, hblock, hcnt, hpar⟩ := run_block hr hp he rfl hlen hexec
  have hreads := run_reads (is := List.range e.val) (rest := rest) (s := { s with
    e := e, gen := genFile e.val, par := par, cnt := cnt, pending := readsOf (List.range e.val) ++ rest }) hr
    (fun i hi => List.mem_range.1 hi) rfl
  rw [wordsAt_range, hpar] at hreads
  exact ⟨par, cnt, _, by rw [hlength, run_add_of_run hblock, hreads], hcnt⟩

/-! ## The split (R74) -/

/-- The split gives pieces exactly when they are the data in order, in the blocks' lengths. -/
theorem splitData_eq_some_iff {bs : List Block} {ds : List Byte} {parts : List (List Byte)} :
    splitData bs ds = some parts ↔ parts.flatten = ds ∧ parts.map List.length = bs.map Block.k := by
  induction bs generalizing ds parts with
  | nil => cases ds <;> cases parts <;> simp [splitData]
  | cons b bs ih =>
    rw [splitData]
    split
    next hshort =>
      refine iff_of_false (by simp) fun ⟨hjoin, hlengths⟩ => ?_
      cases parts with
      | nil => simp at hlengths
      | cons part parts =>
        obtain ⟨hk, _⟩ := List.cons_eq_cons.1 hlengths
        rw [← hjoin, List.flatten_cons, List.length_append, hk] at hshort
        omega
    next hlong =>
      rw [Option.map_eq_some_iff]
      constructor
      · rintro ⟨parts, hparts, rfl⟩
        obtain ⟨hjoin, hlengths⟩ := ih.1 hparts
        have hk : (ds.take b.k).length = b.k := by rw [List.length_take]; omega
        exact ⟨by rw [List.flatten_cons, hjoin, List.take_append_drop],
          by rw [List.map_cons, List.map_cons, hk, hlengths]⟩
      · rintro ⟨rfl, hlengths⟩
        cases parts with
        | nil => simp at hlengths
        | cons part parts =>
          obtain ⟨hk, htail⟩ := List.cons_eq_cons.1 hlengths
          refine ⟨parts, ih.2 ⟨?_, htail⟩, ?_⟩
          · rw [List.flatten_cons, List.drop_left' hk]
          · rw [List.flatten_cons, List.take_left' hk]

theorem splitData_isSome_iff (bs : List Block) (ds : List Byte) :
    (splitData bs ds).isSome = true ↔ (bs.map Block.k).sum = ds.length := by
  induction bs generalizing ds with
  | nil => cases ds <;> simp [splitData]
  | cons b bs ih =>
    rw [splitData, List.map_cons, List.sum_cons]
    split
    next hshort => exact iff_of_false (by simp) (by omega)
    next hlong =>
      rw [Option.isSome_map, ih, List.length_drop]
      omega

/-! ## The interleave (R76) -/

/-- The entries of a row, column by column, are the row. -/
theorem columns_of_row (row : List Byte) {n : Nat} (h : row.length ≤ n) :
    (List.range n).flatMap (fun c => (row[c]?).toList) = row := by
  induction row generalizing n with
  | nil => simp
  | cons x row ih =>
    obtain ⟨n, rfl⟩ : ∃ k, n = k + 1 := ⟨n - 1, by rw [List.length_cons] at h; omega⟩
    rw [List.range_succ_eq_map, List.flatMap_cons, List.flatMap_map]
    exact congrArg (x :: ·) (ih (Nat.le_of_succ_le_succ h))

theorem column_cons (row : List Byte) (rows : List (List Byte)) (c : Nat) :
    column (row :: rows) c = (row[c]?).toList ++ column rows c := by
  cases h : row[c]? <;> simp [column, h]

/-- Enough columns hold every codeword of the rows once. -/
theorem columns_perm {rows : List (List Byte)} {n : Nat} (h : ∀ row ∈ rows, row.length ≤ n) :
    ((List.range n).flatMap (column rows)).Perm rows.flatten := by
  induction rows with
  | nil => simp [column]
  | cons row rows ih =>
    obtain ⟨hrow, hrows⟩ := List.forall_mem_cons.1 h
    have hsplit : column (row :: rows) = fun c => (row[c]?).toList ++ column rows c := funext (column_cons row rows)
    rw [hsplit, List.flatten_cons]
    calc
      List.Perm ((List.range n).flatMap (fun c => (row[c]?).toList ++ column rows c))
          ((List.range n).flatMap (fun c => (row[c]?).toList) ++ (List.range n).flatMap (column rows)) :=
        (List.flatMap_append_perm _ _ _).symm
      List.Perm _ (row ++ rows.flatten) := by rw [columns_of_row row hrow]; exact (ih hrows).append_left row

theorem byColumns_perm (rows : List (List Byte)) : (byColumns rows).Perm rows.flatten :=
  columns_perm fun _ => longest_ge

theorem byColumns_singleton (row : List Byte) : byColumns [row] = row := by
  have hcolumn : column [row] = fun c => (row[c]?).toList := funext fun c => by
    rw [column_cons]; exact List.append_nil _
  rw [byColumns, hcolumn]
  exact columns_of_row row (longest_ge (List.mem_singleton_self row))

/-- Codeword `c` of row `b` stands after the earlier columns and the earlier rows of its own. -/
theorem byColumns_getElem {rows : List (List Byte)} {b c : Nat} {row : List Byte} {x : Byte} (hb : rows[b]? = some row)
    (hc : row[c]? = some x) : (byColumns rows)[columnPosition rows b c]? = some x := by
  obtain ⟨hclt, _⟩ := List.getElem?_eq_some_iff.1 hc
  have hlongest : row.length ≤ longest rows := longest_ge (List.mem_of_getElem? hb)
  obtain ⟨k, hk⟩ : ∃ k, longest rows = c + (k + 1) := ⟨longest rows - c - 1, by omega⟩
  have hcolumn := column_getElem hb hc
  obtain ⟨hlt, _⟩ := List.getElem?_eq_some_iff.1 hcolumn
  have hsplit : byColumns rows = (List.range c).flatMap (column rows) ++
      (column rows c ++ ((List.range k).map (fun j => c + (j + 1))).flatMap (column rows)) := by
    rw [byColumns, hk, List.range_add, List.flatMap_append, List.range_succ_eq_map, List.map_cons, List.flatMap_cons,
      List.map_map]
    rfl
  rw [hsplit, columnPosition, ← columns_length, List.getElem?_append_right (Nat.le_add_right _ _),
    Nat.add_sub_cancel_left, List.getElem?_append_left hlt, hcolumn]

end Sys2Proof.Machine

namespace Sys2Proof.Proofs

open Sys2Proof Sys2Proof.Machine Sys2Proof.Safety

/-- Settles O54: each pseudo-command is a command that begins a block with its feeds, or reads below E, or one
GF_MUL. -/
theorem pseudoCommandsUnderTheirConditions : Obligations.PseudoCommandsUnderTheirConditions := by
  refine ⟨?block, ?refeed, ?readall, ?square⟩
  case block =>
    intro s e ds rest hok hr hp
    obtain ⟨h1, h30, hlen⟩ := rsBlockOk_iff.1 hok
    have hne : (⟨e.toNat, by omega⟩ : Fin 31) ≠ 0 := Fin.ne_of_val_ne (Nat.ne_of_gt h1)
    obtain ⟨par, cnt, hrun, hcnt, hpar⟩ := run_block hr hp hne rfl (by simp; omega)
      (fun evs => exec_rsCfg_of_legal h1 h30 { s with pending := evs })
    rw [rsBlock_length]
    exact ⟨_, hrun, rfl, rfl, hcnt, hpar, rfl, rfl, rfl, rfl, rfl, hr⟩
  case refeed =>
    intro s ds rest hok hgen hr hp
    obtain ⟨hne, hlen⟩ := rsRefeedOk_iff.1 hok
    obtain ⟨par, cnt, hrun, hcnt, hpar⟩ := run_block hr hp hne hgen (by omega)
      (fun evs => exec_rsClr { s with pending := evs })
    rw [rsRefeed_length]
    exact ⟨_, hrun, rfl, rfl, hcnt, hpar, rfl, rfl, rfl, rfl, rfl, hr⟩
  case readall =>
    intro s e rest hok hr hp
    have he : e.toNat = s.e.val := rsReadallOk_iff.1 hok
    have hrun := run_reads (is := List.range e.toNat) hr (fun i hi => he ▸ List.mem_range.1 hi) hp
    rw [he, wordsAt_range, List.length_range] at hrun
    rw [rsReadall_length, he]
    exact ⟨_, hrun, rfl, rfl, rfl, rfl, rfl, rfl, rfl, rfl, rfl, hr⟩
  case square =>
    intro s a rest hr hp
    exact step_cmd hr hp

/-- Settles O49: the set-up leaves an empty block of E, the feeds make its parity, and the reads return it. -/
theorem blockScriptReadsTheBlocksParity : Obligations.BlockScriptReadsTheBlocksParity := by
  intro s e ds rest hinv hr h1 h30 hlen hp
  have hne : (⟨e, by omega⟩ : Fin 31) ≠ 0 := Fin.ne_of_val_ne (Nat.ne_of_gt h1)
  obtain ⟨par, cnt, res, hrun, hcnt⟩ := run_blockScript hinv hr hne hlen hp
  exact ⟨_, hrun, rfl, rfl, rfl, hcnt, rfl, rfl⟩

/-- Settles O50: each block takes its length off the data, and the last finds none left. -/
theorem splitUsesTheDataUpExactly : Obligations.SplitUsesTheDataUpExactly :=
  ⟨fun _ _ _ => splitData_eq_some_iff, splitData_isSome_iff⟩

/-- Settles O51: the columns rearrange the rows, and the position of a codeword counts what stands before it. -/
theorem interleaveKeepsEveryCodeword : Obligations.InterleaveKeepsEveryCodeword := by
  refine ⟨?rearranged, ?single, ?data, ?ec⟩
  case rearranged =>
    intro data ec
    refine ⟨byColumns data, byColumns ec, rfl, byColumns_perm data, byColumns_perm ec, ?_⟩
    rw [interleave, List.length_append, byColumns_length, byColumns_length]
  case single =>
    intro d e
    rw [interleave, byColumns_singleton, byColumns_singleton]
  case data =>
    intro data ec b c row x hb hc
    have hx := byColumns_getElem hb hc
    rw [interleave, List.getElem?_append_left (List.getElem?_eq_some_iff.1 hx).1, hx]
  case ec =>
    intro data ec b c row x hb hc
    rw [interleave, ← byColumns_length, List.getElem?_append_right (Nat.le_add_right _ _), Nat.add_sub_cancel_left,
      byColumns_getElem hb hc]

end Sys2Proof.Proofs
end
